-- ==== Sys2Proof/Word.lean ====
section
/-! DEFINITION. The words of the IBIS telegram encoder (spec/00_scope.md R6, R7): bytes, host addresses, 16-bit
registers, and byte strings. The block has no signed quantities, so no sign extension is defined. -/

namespace Sys2Proof

/-- R6: "A byte is an unsigned 8-bit value". -/
abbrev Byte := BitVec 8

/-- R5, R61: a host bus address, 16 bits. -/
abbrev Addr := BitVec 16

/-- R26, R32, R34: a 16-bit register. -/
abbrev Half := BitVec 16

/-- R7: "A string is a finite list of bytes." -/
abbrev Bytes := List Byte

end Sys2Proof
end

