-- ==== Sys2Proof/Syntax.lean ====
section
/-! DEFINITION. The commands of the block: one constructor per row of spec/opcode_table.json, in its order
(spec/30_encoding.md R95). A command takes its operands from fixed registers, never from fields of the command byte
(R90, R91), so no constructor has an argument. -/

namespace Sys2Proof

/-- The 15 commands of R95. Each docstring names the wire prefix and the rule that gives the payload. -/
inductive Instr where
  /-- `l` + 3 digits, R171. -/
  | line
  /-- `q` + 4 digits, R172. -/
  | linex
  /-- `k` + 2 digits, R173. -/
  | course
  /-- `z` + 3 digits, R174. -/
  | destid
  /-- `e` + 6 digits, R175. -/
  | ticket
  /-- `u` + 4 digits, R176. -/
  | time
  /-- `d` + 5 digits, R177. -/
  | date
  /-- `v` + a text field of 16, 20 or 24 bytes, R178. -/
  | nextv
  /-- `xV` + sign + 3 digits, R179. -/
  | delay
  /-- `zA` + block count + text in 16-byte blocks, R201. -/
  | desttxt
  /-- `zI` + block count + text in 4-byte blocks, R202. -/
  | nextstop
  /-- `aA` + address + block count + text, R203. -/
  | addrdest
  /-- `aL` + address + block count + remainder + record, R204. -/
  | lineprog
  /-- `aA` + address + block count + two lines in 16-byte blocks, R205. -/
  | screen
  /-- The Framer alone on a raw payload, R236. -/
  | frameraw
  deriving DecidableEq, Repr

end Sys2Proof
end

