-- ==== Sys2Proof/WellFormed.lean ====
section
/-! DEFINITION. Well-formedness checks. A command byte has no fields (spec/30_encoding.md R90), so every `Instr` is
well-formed; what can be ill-formed is a command byte (R96) and the parameter TEXT_CAP (spec/00_scope.md R5). -/

namespace Sys2Proof

/-- R90: "There are no fields inside the byte", so there is no operand to check. -/
def Instr.wellFormed (_ : Instr) : Bool := true

/-- R95, R96: the legal command codes are 0x01..0x0F; "Codes 0x00 and 0x10..0xFF are illegal". -/
def commandByteWellFormed (c : Byte) : Bool := decide (1 ≤ c.toNat) && decide (c.toNat ≤ 15)

/-- R5: "an integer with 16 ≤ TEXT_CAP ≤ 1020". -/
def textCapWellFormed (cap : Nat) : Bool := decide (16 ≤ cap) && decide (cap ≤ 1020)

end Sys2Proof
end

