-- ==== Sys2Proof/Decode.lean ====
section
/-! DEFINITION. The decoder of command bytes (spec/30_encoding.md R90, R95, R96) and the encoder written from the same
table. Decoding is total: a byte that is no legal code is rejected by name. -/

namespace Sys2Proof

/-- Why a string of bytes is not a command. -/
inductive DecodeError where
  /-- R96: codes 0x00 and 0x10..0xFF are illegal. The machine completes such a command with E_ILLEGAL_CMD (R252). -/
  | illegalCode (code : Byte)
  /-- There is no byte to decode. -/
  | noByte
  deriving DecidableEq, Repr

/-- R95: the command of a code, `CMD8`, bits 7:0. -/
def decode (c : Byte) : Except DecodeError Instr :=
  match c with
  | 0x01#8 => .ok .line
  | 0x02#8 => .ok .linex
  | 0x03#8 => .ok .course
  | 0x04#8 => .ok .destid
  | 0x05#8 => .ok .ticket
  | 0x06#8 => .ok .time
  | 0x07#8 => .ok .date
  | 0x08#8 => .ok .nextv
  | 0x09#8 => .ok .delay
  | 0x0A#8 => .ok .desttxt
  | 0x0B#8 => .ok .nextstop
  | 0x0C#8 => .ok .addrdest
  | 0x0D#8 => .ok .lineprog
  | 0x0E#8 => .ok .screen
  | 0x0F#8 => .ok .frameraw
  | c => .error (.illegalCode c)

/-- R90: "Every command is one byte long". The command at the head of a string of bytes, with the rest of the string. -/
def decodeBytes : Bytes → Except DecodeError (Instr × Bytes)
  | [] => .error .noByte
  | c :: rest =>
    match decode c with
    | .ok i => .ok (i, rest)
    | .error e => .error e

/-- R95: the code of a command. -/
def encode : Instr → Byte
  | .line => 0x01
  | .linex => 0x02
  | .course => 0x03
  | .destid => 0x04
  | .ticket => 0x05
  | .time => 0x06
  | .date => 0x07
  | .nextv => 0x08
  | .delay => 0x09
  | .desttxt => 0x0A
  | .nextstop => 0x0B
  | .addrdest => 0x0C
  | .lineprog => 0x0D
  | .screen => 0x0E
  | .frameraw => 0x0F

/-- The first `n` bytes of an instruction whose bits are `w`, bit 0 the least significant bit of the first byte. -/
def tableBytes : Nat → Nat → Bytes
  | 0, _ => []
  | n + 1, w => BitVec.ofNat 8 w :: tableBytes n (w / 256)

/-- The command the decoder reads from an instruction of `nbits` bits (whole bytes) whose bits are `w`. -/
def decodeTableWord (nbits w : Nat) : Option Instr :=
  match decodeBytes (tableBytes (nbits / 8) w) with
  | .ok (i, _) => some i
  | .error _ => none

end Sys2Proof
end

