-- ==== Sys2Proof/Config.lean ====
section
/-! DEFINITION. What an implementation fixes, and the free values. TEXT_CAP is the one open parameter
(spec/92_eei_decisions.md D12): the model carries it as `State.tcap` (log entry 1), so that every statement holds for
every value of it; here stands its reference value, which `State.reset` uses. -/

namespace Sys2Proof

/-- R5: the reference value of TEXT_CAP, 256. DESIGN CHOICE (log entry 1): the instance `State.reset` is built with. -/
def Config.textCapReference : Half := 256

/-- The draws of spec/93_implementation_defined.md U1, U2, U4, U5, U8 ("any value"): the n-th unspecified byte that a
run meets. It has no body, so nothing can be proved of its value; `State.draws` counts the draws already made
(log entry 2). -/
opaque Config.drawByte : Nat → Byte

end Sys2Proof
end

