-- ==== Sys2Proof/Machine/State.lean ====
section
/-! DEFINITION. The state of the block and of the agents around it (spec/10_state.md R20 to R41), as plain data, and the
state after reset (R41). Registers the spec hardwires or derives (the STATUS word, NUM, TLENk, pending) are computed
from these fields by the operations of Ops, Operands and Flags. -/

namespace Sys2Proof.Machine

/-- R28: the STATUS flags. Bits 7:5 are reserved and read 0, so they hold no state. -/
structure Status where
  /-- Bit 0: a command is issued and not yet completed. -/
  busy : Bool
  /-- Bit 1: a command has completed, with success or an error. -/
  done : Bool
  /-- Bit 2: the last completion was an error. -/
  err : Bool
  /-- Bit 3: a host write was ignored because BUSY was 1 (write 1 to clear). -/
  wign : Bool
  /-- Bit 4: the remapped payload of the last success holds a byte ≥ 0x80. -/
  hibit : Bool
  deriving DecidableEq, Repr

/-- R35: the three text buffers TBUF[0], TBUF[1], TBUF[2] and their lengths. -/
inductive TextIdx where
  | t0
  | t1
  | t2
  deriving DecidableEq, Repr

/-- R251: the causes of an error completion. -/
inductive ErrCode where
  /-- 0x01, R252. -/
  | illegalCmd
  /-- 0x02, R253. -/
  | tlen
  /-- 0x03, R254. -/
  | wsel
  /-- 0x04, R255. -/
  | numOvf
  /-- 0x05, R256. -/
  | txtOvf
  deriving DecidableEq, Repr

/-- What `payload(c)` of R125, R130 answers. -/
inductive Built where
  /-- The raw payload before remap, the block count and the remainder. -/
  | ok (p : Bytes) (nb rem : Nat)
  /-- `raise Error(e)`, R250. -/
  | error (e : ErrCode)
  /-- Every error check passed and a text byte the command reads is unwritten, R129. -/
  | unwritten
  deriving DecidableEq, Repr

/-- R39, R282: one entry of the output history OUT. -/
structure Emission where
  /-- The bytes the sink received, first byte first (R66). -/
  bytes : Bytes
  /-- R282: the sink received only a prefix, because reset cut the command off. -/
  truncated : Bool
  deriving DecidableEq, Repr

/-- R99: the real instructions of the host assembly. A label is the index of an instruction of the program. -/
inductive HostInstr where
  /-- `wr A, V`: `MemWrite(A, 1, V)`. -/
  | wr (a : Addr) (v : Byte)
  /-- `rd A`: `h <- MemRead(A, 1)`. -/
  | rd (a : Addr)
  /-- `bnz L, M`: if `(h & M) != 0` then continue at label L. -/
  | bnz (target : Nat) (mask : Byte)
  /-- `halt`: the program ends. -/
  | halt
  deriving DecidableEq, Repr

/-- R101: one bus transaction the host performed. -/
inductive Transaction where
  /-- `W AAAA VV`. -/
  | write (a : Addr) (v : Byte)
  /-- `R AAAA`, with the value the bus returned. -/
  | read (a : Addr) (v : Byte)
  deriving DecidableEq, Repr

/-- Who moves next (log entry 3). R20 names the agents and R280 the reset event. The spec gives no order between them
(R123, R292), so the order is an input of the machine. -/
inductive Turn where
  /-- The host performs one instruction of its program: at most one bus access. -/
  | host
  /-- The engine takes its completion step if it is enabled (R123). -/
  | engine
  /-- The sink begins or ceases to accept frames (R127, R295). -/
  | sink (accepts : Bool)
  /-- The reset input (R280). `sent` is the draw of R282: how many bytes of the pending frame the sink had received. -/
  | reset (sent : Nat)
  deriving DecidableEq, Repr

/-- The bytes of TBUF and FBUF that hold a value, by host address (R62), addresses strictly rising. An address that is
not listed holds no value: an unwritten TBUF byte (R35) or an unspecified FBUF byte (R36). -/
abbrev Memory := List Host.Cell

/-- The canonical form of a memory: addresses strictly rising. An unlisted address holds no value, so no entry can equal
what an unlisted address reads as, and equal memories are equal lists. -/
abbrev Memory.wf (m : Memory) : Prop := m.Pairwise (fun x y => x.1 < y.1)

/-- All state of the block (R22 to R39), of the host (R99, R101) and of the sink (R127), and the order of turns.
R22's prose counts "10 host-writable operand bytes"; its own table, R23 to R26 and R62 give the 11 at 0x0003 to 0x000D, and
the model holds those 11. DEDUCED, log entry 16. -/
structure State where
  /-- CMD, R27. While BUSY = 1 it is *pending*, R39. -/
  cmd : Byte
  /-- STATUS, R28. -/
  status : Status
  /-- ERRCODE, R29. -/
  errcode : Byte
  /-- ADDR, R23. -/
  addr : Byte
  /-- ARGF bits 2:0, R24; bits 7:3 are reserved. -/
  argf : BitVec 3
  /-- NUM0, R25. -/
  num0 : Byte
  /-- NUM1, R25. -/
  num1 : Byte
  /-- NUM2 bits 3:0, R25; bits 7:4 are reserved. -/
  num2 : BitVec 4
  /-- TLEN0_LO, R26. -/
  tlen0Lo : Byte
  /-- TLEN0_HI, R26. -/
  tlen0Hi : Byte
  /-- TLEN1_LO, R26. -/
  tlen1Lo : Byte
  /-- TLEN1_HI, R26. -/
  tlen1Hi : Byte
  /-- TLEN2_LO, R26. -/
  tlen2Lo : Byte
  /-- TLEN2_HI, R26. -/
  tlen2Hi : Byte
  /-- NBLK, R30. -/
  nblk : Byte
  /-- REM, R31. -/
  rem : Byte
  /-- FLEN, R32. -/
  flen : Half
  /-- CSUM, R33. -/
  csum : Byte
  /-- TCAP, R34: hardwired to the parameter TEXT_CAP; nothing writes it (log entry 1). -/
  tcap : Half
  /-- TBUF and FBUF, R35, R36. -/
  mem : Memory
  /-- ACC, the checksum accumulator, R37. -/
  acc : Byte
  /-- OUT, the output history since power-on, R39. -/
  out : List Emission
  /-- The sink: whether it accepts a frame now, R127. -/
  sinkReady : Bool
  /-- The host's scratch register `h`, R99. -/
  h : Byte
  /-- The host's program, R99. -/
  hostProg : List HostInstr
  /-- The index of the host's next instruction, R99. -/
  hostPc : Nat
  /-- The bus transactions the host has performed, R101. -/
  listing : List Transaction
  /-- The turns to come; when none is listed, see `step` (log entry 3). -/
  turns : List Turn
  /-- The model's own counter of draws already made (log entry 2). -/
  draws : Nat
  deriving DecidableEq, Repr

/-- Why the machine stops. -/
inductive Fault where
  /-- Raised by the completion of a command that reads a text (`complete`), when every error check has passed and a byte
  of the text is unwritten since reset. R129: "A model must **fault** at that completion, and not pick a value." Safe:
  the hardware goes on with an unspecified byte, and no claim is provable about that run. -/
  | unwrittenText
  deriving DecidableEq, Repr

/-- Why an instruction has no meaning. -/
inductive Refusal where
  /-- Raised by an arm of `exec` whose instruction has no meaning. No arm of this model answers so. Safe. -/
  | notModelled (mnemonic : String)
  deriving DecidableEq, Repr

/-- R41 for a block built with TEXT_CAP = `cap`, at power-on: OUT is empty because no frame was ever handed over.
ACC (unspecified, R41), the host's and the sink's fields and the two fields of the model's own hold values the log names
(entries 2, 3, 4, 5). -/
def State.resetWith (cap : Half) : State where
  cmd := 0x00
  status := { busy := false, done := false, err := false, wign := false, hibit := false }
  errcode := 0x00
  addr := 0x00
  argf := 0
  num0 := 0x00
  num1 := 0x00
  num2 := 0
  tlen0Lo := 0x00
  tlen0Hi := 0x00
  tlen1Lo := 0x00
  tlen1Hi := 0x00
  tlen2Lo := 0x00
  tlen2Hi := 0x00
  nblk := 0x00
  rem := 0x00
  flen := 0x0000
  csum := 0x00
  tcap := cap
  mem := []
  acc := 0x00
  out := []
  sinkReady := true
  h := 0x00
  hostProg := []
  hostPc := 0
  listing := []
  turns := []
  draws := 0

/-- The machine right after power-on reset (R41, R281), with the reference TEXT_CAP (R5). -/
def State.reset : State := State.resetWith Config.textCapReference

end Sys2Proof.Machine
end

