-- ==== Sys2Proof/Machine/Flags.lean ====
section
/-! DEFINITION. The STATUS flags (spec/10_state.md R28, R40): the byte the host reads, and what issue (R120), a busy-lock
hit (R121), a STATUS write (R28) and the two completions (R126, R128) do to them. -/

namespace Sys2Proof.Machine

/-- R28: the byte a host read of STATUS returns; bits 7:5 read 0 (R64). -/
def statusWord (st : Status) : Byte :=
  (0 : BitVec 3) ++ BitVec.ofBool st.hibit ++ BitVec.ofBool st.wign ++ BitVec.ofBool st.err ++
    BitVec.ofBool st.done ++ BitVec.ofBool st.busy

/-- R238: is there a byte ≥ 0x80 in `q`? -/
def hibit (q : Bytes) : Bool := q.any (fun b => decide (0x80 ≤ b.toNat))

/-- R120: the flags after a command issue; WIGN is not changed. -/
def statusIssued (st : Status) : Status := { st with busy := true, done := false, err := false, hibit := false }

/-- R126: the flags after a success, with `hb` = hibit(remap(p)); WIGN is not changed. -/
def statusSucceeded (st : Status) (hb : Bool) : Status :=
  { st with busy := false, done := true, err := false, hibit := hb }

/-- R128: the flags after an error; HIBIT stays where issue left it, WIGN is not changed. -/
def statusFailed (st : Status) : Status := { st with busy := false, done := true, err := true }

/-- R121: a host write was ignored because BUSY = 1. -/
def statusIgnored (st : Status) : Status := { st with wign := true }

/-- R28: a host write of `v` to STATUS clears WIGN if `v[3]` = 1 and has no other effect. -/
def statusWritten (st : Status) (v : Byte) : Status := { st with wign := st.wign && !v.getLsbD 3 }

/-- R251: the byte ERRCODE receives. -/
def errByte : ErrCode → Byte
  | .illegalCmd => 0x01
  | .tlen => 0x02
  | .wsel => 0x03
  | .numOvf => 0x04
  | .txtOvf => 0x05

end Sys2Proof.Machine
end

