-- ==== Sys2Proof/Machine/Codec.lean ====
section
/-! DEFINITION. The codec functions every command uses (spec/00_scope.md R10, spec/41_codec.md) and the Framer
(spec/44_framer.md). Each is a pure function of its inputs. -/

namespace Sys2Proof.Machine

/-- R7, R8: SP. -/
def chSP : Byte := 0x20

/-- R7, R8: LF. -/
def chLF : Byte := 0x0A

/-- R7, R8: CR, the terminator of R233. -/
def chCR : Byte := 0x0D

/-- R5, R231: the checksum seed. -/
def checksumSeed : Byte := 0x7F

/-- R140: the symbol of a nibble, 0x30 + n. -/
def hexsym (n : BitVec 4) : Byte := 0x30 + n.setWidth 8

/-- R141: the hex-nibble encoding of a byte; the high symbol is left out when the high nibble is 0. -/
def hex (v : Byte) : Bytes :=
  if v.extractLsb' 4 4 ≠ 0 then [hexsym (v.extractLsb' 4 4), hexsym (v.extractLsb' 0 4)]
  else [hexsym (v.extractLsb' 0 4)]

/-- R143: the W-digit zero-padded decimal of `n`, most significant digit first. -/
def dec (W n : Nat) : Bytes :=
  (List.range W).map (fun j => BitVec.ofNat 8 (0x30 + n / 10 ^ (W - 1 - j) % 10))

/-- R144: `s` left-justified in a field of W bytes. -/
def ljust (W : Nat) (s : Bytes) : Bytes := s ++ List.replicate (W - s.length) chSP

/-- R38, R145: the remap table, input byte and output byte. -/
def remapTable : List (Byte × Byte) :=
  [(0xE4, 0x7B), (0xF6, 0x7C), (0xFC, 0x7D), (0xDF, 0x7E), (0xC4, 0x5B), (0xD6, 0x5C), (0xDC, 0x5D)]

/-- R146: `m(b)`. -/
def remapByte (b : Byte) : Byte := (remapTable.lookup b).getD b

/-- R147: the remap of a string. -/
def remap (s : Bytes) : Bytes := s.map remapByte

/-- R6: floor((a + b − 1) / b). -/
def ceilDiv (a b : Nat) : Nat := (a + b - 1) / b

/-- R149: the number of `b`-byte blocks of `s`. -/
def nblocks (s : Bytes) (b : Nat) : Nat := ceilDiv s.length b

/-- R150: the second element of `pad(s, b)`, the padded text. -/
def padtext (s : Bytes) (b : Nat) : Bytes := s ++ List.replicate (nblocks s b * b - s.length) chSP

/-- R150: the block count and the padded text. -/
def pad (s : Bytes) (b : Nat) : Nat × Bytes := (nblocks s b, padtext s b)

/-- R232: fold the bytes of `q` into the accumulator, in order. -/
def accFold (acc : Byte) (q : Bytes) : Byte := q.foldl (fun a b => a ^^^ b) acc

/-- R230 steps 1 and 2: the remapped payload with the terminator appended (R233). -/
def terminated (p : Bytes) : Bytes := remap p ++ [chCR]

/-- R230 step 3: the final value of ACC, loaded with the seed at the start of the frame (R231). -/
def checksum (p : Bytes) : Byte := accFold checksumSeed (terminated p)

/-- R230: the frame of a raw payload; step 4 appends the checksum (R234). -/
def frame (p : Bytes) : Bytes := terminated p ++ [checksum p]

end Sys2Proof.Machine
end

