-- ==== Sys2Proof/Machine/Memory.lean ====
section
/-! DEFINITION. The operations over the byte memory that holds TBUF and FBUF (spec/20_memory.md R62, R71, R72), and
where the buffers lie. -/

namespace Sys2Proof.Machine

/-- R35, R71: the host address of `TBUF[k][0]`, 0x1000 + 0x400 × k. -/
def tbufBase : TextIdx → Nat
  | .t0 => 0x1000
  | .t1 => 0x1400
  | .t2 => 0x1800

/-- R36, R72: the host address of `FBUF[0]`. -/
def fbufBase : Nat := 0x2000

/-- R5: FRAME_CAP = 3 × TEXT_CAP + 32. -/
def frameCap (cap : Nat) : Nat := 3 * cap + 32

/-- The byte held at an address, if one is held there. -/
def memLookup : Memory → Nat → Option Byte
  | [], _ => none
  | c :: m, a => if c.1 = a then some c.2 else memLookup m a

/-- The cells of a string of bytes laid out from address `a` upwards. -/
def memCells : Nat → Bytes → Memory
  | _, [] => []
  | a, b :: bs => (a, b) :: memCells (a + 1) bs

/-- Store a string of bytes at addresses `a`, `a + 1`, …; every other address keeps what it holds. -/
def memStore (m : Memory) (a : Nat) (bs : Bytes) : Memory :=
  m.filter (fun c => decide (c.1 < a)) ++ memCells a bs ++ m.filter (fun c => decide (a + bs.length ≤ c.1))

/-- Make the `n` addresses from `a` upwards hold no value. -/
def memClear (m : Memory) (a n : Nat) : Memory :=
  m.filter (fun c => decide (c.1 < a) || decide (a + n ≤ c.1))

/-- The bytes held at the `n` addresses from `a` upwards, if every one holds a value. -/
def memRead (m : Memory) : Nat → Nat → Option Bytes
  | _, 0 => some []
  | a, n + 1 =>
    match memLookup m a, memRead m (a + 1) n with
    | some b, some bs => some (b :: bs)
    | _, _ => none

/-- Give each of the `n` addresses from `a` upwards that holds no value a draw, the first draw being number `d`. -/
def memFill (m : Memory) : Nat → Nat → Nat → Memory
  | _, 0, _ => m
  | a, n + 1, d =>
    match memLookup m a with
    | some _ => memFill m (a + 1) n (d + 1)
    | none => memFill (memStore m a [Config.drawByte d]) (a + 1) n (d + 1)

end Sys2Proof.Machine
end

