-- ==== Sys2Proof/Machine/Operands.lean ====
section
/-! DEFINITION. Operand assembly (spec/30_encoding.md R91 to R94): how a command reads NUM, the flags of ARGF and its
texts, and the checks each reading makes. -/

namespace Sys2Proof.Machine

/-- R34: the parameter TEXT_CAP, as TCAP holds it. -/
def textCap (s : State) : Nat := s.tcap.toNat

/-- R92: NUM = {NUM2[3:0], NUM1[7:0], NUM0[7:0]}. -/
def numWord (s : State) : BitVec 20 := s.num2 ++ s.num1 ++ s.num0

/-- R92: NUM as an unsigned number. -/
def num (s : State) : Nat := (numWord s).toNat

/-- R93: TLENk = {TLENk_HI, TLENk_LO}. -/
def tlenWord (s : State) : TextIdx → Half
  | .t0 => s.tlen0Hi ++ s.tlen0Lo
  | .t1 => s.tlen1Hi ++ s.tlen1Lo
  | .t2 => s.tlen2Hi ++ s.tlen2Lo

/-- R93: TLENk as an unsigned number. -/
def tlen (s : State) (k : TextIdx) : Nat := (tlenWord s k).toNat

/-- R94: SGN = ARGF[0]. -/
def sgn (s : State) : BitVec 1 := s.argf.extractLsb' 0 1

/-- R94: WSEL = ARGF[2:1]. -/
def wsel (s : State) : BitVec 2 := s.argf.extractLsb' 1 2

/-- R94: the NEXTV field width; none when WSEL = 3. -/
def widthOf (w : BitVec 2) : Option Nat :=
  match w with
  | 0#2 => some 16
  | 1#2 => some 20
  | 2#2 => some 24
  | _ => none

/-- R94: the sign byte of DELAY, `+` when SGN = 0 and `-` when SGN = 1. -/
def signByte (g : BitVec 1) : Byte := if g = 0 then 0x2B else 0x2D

/-- R39: the command issued and not yet completed; it is the code in CMD while BUSY = 1. -/
def pending (s : State) : Option Byte := if s.status.busy then some s.cmd else none

/-- R93: Tk, if every byte of it has been written. -/
def readText (s : State) (k : TextIdx) : Option Bytes := memRead s.mem (tbufBase k) (tlen s k)

/-- R93, R253: a command that reads text `k` fails with E_TLEN when TLENk > TEXT_CAP; else it goes on as `b`. -/
def checkLen (s : State) (k : TextIdx) (b : Built) : Built :=
  if tlen s k > textCap s then .error .tlen else b

/-- R93, R129: go on with the bytes of text `k`. -/
def withText (s : State) (k : TextIdx) (f : Bytes → Built) : Built :=
  match readText s k with
  | some t => f t
  | none => .unwritten

/-- R143, R255: the head of a telegram and then NUM in W digits; E_NUM_OVF when NUM > 10^W − 1. NBLK and REM are 0
(R170). -/
def numberField (s : State) (head : Bytes) (W : Nat) : Built :=
  if num s > 10 ^ W - 1 then .error .numOvf else .ok (head ++ dec W (num s)) 0 0

end Sys2Proof.Machine
end

