-- ==== Sys2Proof/Machine/Ops.lean ====
section
/-! DEFINITION. The named operations over the block's state: the host bus (spec/20_memory.md), issue, the two
completions, emission (spec/40_command_cycle.md), errors (spec/60_exceptions.md) and reset
(spec/70_reset_and_hazards.md). The block has no traps (R258); `errorCompletion` is the one shared operation every error
ends in, and there is no return from it (R259). -/

namespace Sys2Proof.Machine

/-- What an address of the host register space names (R62). -/
inductive Loc where
  | cmd
  | status
  | errcode
  | addr
  | argf
  | num0
  | num1
  | num2
  | tlenLo (k : TextIdx)
  | tlenHi (k : TextIdx)
  | nblk
  | rem
  | flenLo
  | flenHi
  | csum
  | tcapLo
  | tcapHi
  /-- `TBUF[k]` at host address `a` (R71). -/
  | tbuf (k : TextIdx) (a : Nat)
  /-- FBUF at host address `a` (R72). -/
  | fbuf (a : Nat)
  /-- R63. -/
  | reserved
  deriving DecidableEq, Repr

/-- R62: the registers at 0x0000 to 0x0015. -/
def registerAt : Nat → Option Loc
  | 0x0000 => some .cmd
  | 0x0001 => some .status
  | 0x0002 => some .errcode
  | 0x0003 => some .addr
  | 0x0004 => some .argf
  | 0x0005 => some .num0
  | 0x0006 => some .num1
  | 0x0007 => some .num2
  | 0x0008 => some (.tlenLo .t0)
  | 0x0009 => some (.tlenHi .t0)
  | 0x000A => some (.tlenLo .t1)
  | 0x000B => some (.tlenHi .t1)
  | 0x000C => some (.tlenLo .t2)
  | 0x000D => some (.tlenHi .t2)
  | 0x000E => some .nblk
  | 0x000F => some .rem
  | 0x0010 => some .flenLo
  | 0x0011 => some .flenHi
  | 0x0012 => some .csum
  | 0x0014 => some .tcapLo
  | 0x0015 => some .tcapHi
  | _ => none

/-- R71: does `a` lie in the mapped part of the window of `TBUF[k]`, when TEXT_CAP = `cap`? -/
def inTbuf (cap : Nat) (k : TextIdx) (a : Nat) : Bool := decide (tbufBase k ≤ a) && decide (a < tbufBase k + cap)

/-- R72: does `a` lie in the mapped part of the FBUF window, when TEXT_CAP = `cap`? -/
def inFbuf (cap a : Nat) : Bool := decide (fbufBase ≤ a) && decide (a < fbufBase + frameCap cap)

/-- R62: what a host address names, when TEXT_CAP = `cap`. -/
def locate (cap : Nat) (a : Addr) : Loc :=
  match registerAt a.toNat with
  | some l => l
  | none =>
    if inTbuf cap .t0 a.toNat then .tbuf .t0 a.toNat
    else if inTbuf cap .t1 a.toNat then .tbuf .t1 a.toNat
    else if inTbuf cap .t2 a.toNat then .tbuf .t2 a.toNat
    else if inFbuf cap a.toNat then .fbuf a.toNat
    else .reserved

/-- R121: the busy-locked locations. -/
def busyLocked : Loc → Bool
  | .cmd | .addr | .argf | .num0 | .num1 | .num2 | .tlenLo _ | .tlenHi _ | .tbuf _ _ => true
  | .status | .errcode | .nblk | .rem | .flenLo | .flenHi | .csum | .tcapLo | .tcapHi | .fbuf _ | .reserved => false

/-- The value a rule gives a location for reads; none where reads are unspecified: a result location while BUSY = 1
(R122), an unwritten TBUF byte (R71), an FBUF byte that is no byte of the last success's frame (R72). -/
def readable (s : State) : Loc → Option Byte
  | .cmd => some s.cmd
  | .status => some (statusWord s.status)
  | .errcode => if s.status.busy then none else some s.errcode
  | .addr => some s.addr
  | .argf => some (s.argf.setWidth 8)
  | .num0 => some s.num0
  | .num1 => some s.num1
  | .num2 => some (s.num2.setWidth 8)
  | .tlenLo k => some ((tlenWord s k).extractLsb' 0 8)
  | .tlenHi k => some ((tlenWord s k).extractLsb' 8 8)
  | .nblk => if s.status.busy then none else some s.nblk
  | .rem => if s.status.busy then none else some s.rem
  | .flenLo => if s.status.busy then none else some (s.flen.extractLsb' 0 8)
  | .flenHi => if s.status.busy then none else some (s.flen.extractLsb' 8 8)
  | .csum => if s.status.busy then none else some s.csum
  | .tcapLo => some (s.tcap.extractLsb' 0 8)
  | .tcapHi => some (s.tcap.extractLsb' 8 8)
  | .tbuf _ a => memLookup s.mem a
  | .fbuf a => if s.status.busy then none else memLookup s.mem a
  | .reserved => some 0x00

/-- R61, R69: `MemRead(a, 1)`. No read has a side effect on the block; an unspecified read is a draw (R71, R72, R122),
and only the model's own count of draws moves. -/
def busRead (a : Addr) (s : State) : Byte × State :=
  match readable s (locate (textCap s) a) with
  | some v => (v, s)
  | none => (Config.drawByte s.draws, { s with draws := s.draws + 1 })

/-- R120: a write of `v` to CMD while BUSY = 0. *pending* is the code in CMD (R39). -/
def issue (v : Byte) (s : State) : State :=
  { s with cmd := v, status := statusIssued s.status, errcode := 0x00 }

/-- R26: store a byte of TLENk. -/
def writeTlenLo (v : Byte) (s : State) : TextIdx → State
  | .t0 => { s with tlen0Lo := v }
  | .t1 => { s with tlen1Lo := v }
  | .t2 => { s with tlen2Lo := v }

/-- R26: store a byte of TLENk. -/
def writeTlenHi (v : Byte) (s : State) : TextIdx → State
  | .t0 => { s with tlen0Hi := v }
  | .t1 => { s with tlen1Hi := v }
  | .t2 => { s with tlen2Hi := v }

/-- A host write of `v` to a location that the busy lock does not hold (R23 to R28, R63, R71). -/
def writeLoc (v : Byte) (s : State) : Loc → State
  | .cmd => issue v s
  | .status => { s with status := statusWritten s.status v }
  | .addr => { s with addr := v }
  | .argf => { s with argf := v.extractLsb' 0 3 }
  | .num0 => { s with num0 := v }
  | .num1 => { s with num1 := v }
  | .num2 => { s with num2 := v.extractLsb' 0 4 }
  | .tlenLo k => writeTlenLo v s k
  | .tlenHi k => writeTlenHi v s k
  | .tbuf _ a => { s with mem := memStore s.mem a [v] }
  | .errcode | .nblk | .rem | .flenLo | .flenHi | .csum | .tcapLo | .tcapHi | .fbuf _ | .reserved => s

/-- R61, R121: `MemWrite(a, 1, v)`. -/
def busWrite (a : Addr) (v : Byte) (s : State) : State :=
  if s.status.busy && busyLocked (locate (textCap s) a) then { s with status := statusIgnored s.status }
  else writeLoc v s (locate (textCap s) a)

/-- R127: hand a whole frame to the sink. -/
def emit (f : Bytes) (out : List Emission) : List Emission := out ++ [{ bytes := f, truncated := false }]

/-- R126: FBUF after a success: the frame in `FBUF[0..]`, every byte after it unspecified. -/
def storeFrame (s : State) (f : Bytes) : Memory :=
  memStore (memClear s.mem fbufBase (frameCap (textCap s))) fbufBase f

/-- R125, R126: successful completion with raw payload `p`. ACC ends at the checksum (R234). -/
def successCompletion (p : Bytes) (nb rem : Nat) (s : State) : State :=
  { s with
    mem := storeFrame s (frame p)
    flen := BitVec.ofNat 16 (frame p).length
    csum := checksum p
    acc := checksum p
    nblk := BitVec.ofNat 8 nb
    rem := BitVec.ofNat 8 rem
    errcode := 0x00
    out := emit (frame p) s.out
    status := statusSucceeded s.status (hibit (remap p)) }

/-- R128, R250: error completion. FBUF becomes unspecified; NBLK, REM and CSUM are unchanged; no frame is emitted. -/
def errorCompletion (e : ErrCode) (s : State) : State :=
  { s with
    mem := memClear s.mem fbufBase (frameCap (textCap s))
    flen := 0
    errcode := errByte e
    status := statusFailed s.status }

/-- R123, R125: the completion of a command whose `payload` answers `b`. An error completes at once. A success waits until
the sink accepts (R127, R295): until then the step is not enabled and changes nothing. A payload that reads an unwritten
byte faults at its completion (R129). -/
def complete (b : Built) (s : State) : Host.Outcome State Fault Refusal :=
  match b with
  | .error e => .next (errorCompletion e s)
  | .ok p nb rem => if s.sinkReady then .next (successCompletion p nb rem s) else .next s
  | .unwritten => if s.sinkReady then .fault .unwrittenText else .next s

/-- Is this payload an error? An error completion needs no sink (R123). -/
def Built.isError : Built → Bool
  | .error _ => true
  | .ok _ _ _ => false
  | .unwritten => false

end Sys2Proof.Machine
end

