-- ==== Sys2Proof/Machine/BlockStructured.lean ====
section
/-! DEFINITION. The block-structured telegrams (spec/43_block_structured.md R200 to R206): for each command its payload,
and the completion of it. Block math uses the text as it stands in TBUF, before remap (R153). A block count fits `hex`
whenever TEXT_CAP does not exceed 1020 (R155). -/

namespace Sys2Proof.Machine

/-- A block count as the byte `hex` takes (R155). -/
def countByte (nb : Nat) : Byte := BitVec.ofNat 8 nb

/-- R201: `zA`, the block count and T0 padded to 16-byte blocks. -/
def payloadDesttxt (s : State) : Built :=
  checkLen s .t0 (withText s .t0 (fun t0 =>
    .ok ([0x7A, 0x41] ++ hex (countByte (pad t0 16).1) ++ (pad t0 16).2) (pad t0 16).1 0))

/-- R201. -/
def execDesttxt (s : State) : Host.Outcome State Fault Refusal := complete (payloadDesttxt s) s

/-- R202: `zI`, the block count and T0 padded to 4-byte blocks. -/
def payloadNextstop (s : State) : Built :=
  checkLen s .t0 (withText s .t0 (fun t0 =>
    .ok ([0x7A, 0x49] ++ hex (countByte (pad t0 4).1) ++ (pad t0 4).2) (pad t0 4).1 0))

/-- R202. -/
def execNextstop (s : State) : Host.Outcome State Fault Refusal := complete (payloadNextstop s) s

/-- R203: `aA`, the address, the count of 4-byte blocks and T0 cut to nb × 16 bytes, without padding. -/
def payloadAddrdest (s : State) : Built :=
  checkLen s .t0 (withText s .t0 (fun t0 =>
    .ok ([0x61, 0x41] ++ hex s.addr ++ hex (countByte (nblocks t0 4)) ++ t0.take (nblocks t0 4 * 16))
      (nblocks t0 4) 0))

/-- R203. -/
def execAddrdest (s : State) : Host.Outcome State Fault Refusal := complete (payloadAddrdest s) s

/-- R204: the record `\x03 T0 \x04 T1 \x05 T2`. -/
def lineprogRecord (t0 t1 t2 : Bytes) : Bytes := [0x03] ++ t0 ++ [0x04] ++ t1 ++ [0x05] ++ t2

/-- R204: `aL`, the address, the count of 16-byte blocks, the remainder and the record, without padding. -/
def payloadLineprog (s : State) : Built :=
  checkLen s .t0 (checkLen s .t1 (checkLen s .t2
    (withText s .t0 (fun t0 => withText s .t1 (fun t1 => withText s .t2 (fun t2 =>
      .ok ([0x61, 0x4C] ++ hex s.addr ++ hex (countByte (ceilDiv (lineprogRecord t0 t1 t2).length 16)) ++
          hex (countByte ((lineprogRecord t0 t1 t2).length % 16)) ++ lineprogRecord t0 t1 t2)
        (ceilDiv (lineprogRecord t0 t1 t2).length 16) ((lineprogRecord t0 t1 t2).length % 16)))))))

/-- R204. -/
def execLineprog (s : State) : Host.Outcome State Fault Refusal := complete (payloadLineprog s) s

/-- R205: the two lines, with a separator only when line 2 is not empty, and the end marker LF LF. -/
def screenText (t0 t1 : Bytes) : Bytes := t0 ++ (if t1.length > 0 then [chLF] ++ t1 else []) ++ [chLF, chLF]

/-- R205: `aA`, the address, the block count and the screen text padded to 16-byte blocks. -/
def payloadScreen (s : State) : Built :=
  checkLen s .t0 (checkLen s .t1
    (withText s .t0 (fun t0 => withText s .t1 (fun t1 =>
      .ok ([0x61, 0x41] ++ hex s.addr ++ hex (countByte (pad (screenText t0 t1) 16).1) ++ (pad (screenText t0 t1) 16).2)
        (pad (screenText t0 t1) 16).1 0))))

/-- R205. -/
def execScreen (s : State) : Host.Outcome State Fault Refusal := complete (payloadScreen s) s

end Sys2Proof.Machine
end

