-- ==== Sys2Proof/Machine/FixedFormat.lean ====
section
/-! DEFINITION. The fixed-format telegrams (spec/42_fixed_format.md R170 to R179): for each command its payload, and the
completion of it. -/

namespace Sys2Proof.Machine

/-- R171: "`l` + 3-digit decimal". -/
def payloadLine (s : State) : Built := numberField s [0x6C] 3

/-- R171. -/
def execLine (s : State) : Host.Outcome State Fault Refusal := complete (payloadLine s) s

/-- R172: "`q` + 4-digit decimal". -/
def payloadLinex (s : State) : Built := numberField s [0x71] 4

/-- R172. -/
def execLinex (s : State) : Host.Outcome State Fault Refusal := complete (payloadLinex s) s

/-- R173: "`k` + 2-digit decimal". -/
def payloadCourse (s : State) : Built := numberField s [0x6B] 2

/-- R173. -/
def execCourse (s : State) : Host.Outcome State Fault Refusal := complete (payloadCourse s) s

/-- R174: "`z` + 3-digit decimal". -/
def payloadDestid (s : State) : Built := numberField s [0x7A] 3

/-- R174. -/
def execDestid (s : State) : Host.Outcome State Fault Refusal := complete (payloadDestid s) s

/-- R175: "`e` + 6-digit decimal". -/
def payloadTicket (s : State) : Built := numberField s [0x65] 6

/-- R175. -/
def execTicket (s : State) : Host.Outcome State Fault Refusal := complete (payloadTicket s) s

/-- R176: "`u` + 4-digit decimal". -/
def payloadTime (s : State) : Built := numberField s [0x75] 4

/-- R176. -/
def execTime (s : State) : Host.Outcome State Fault Refusal := complete (payloadTime s) s

/-- R177: "`d` + 5-digit decimal". -/
def payloadDate (s : State) : Built := numberField s [0x64] 5

/-- R177. -/
def execDate (s : State) : Host.Outcome State Fault Refusal := complete (payloadDate s) s

/-- R178: `v` and T0 left-justified in 16, 20 or 24 bytes. The errors come in the order E_TLEN, E_WSEL, E_TXT_OVF (R257);
len(T0) is TLEN0 (R93), so every check comes before the first text byte is read. -/
def payloadNextv (s : State) : Built :=
  checkLen s .t0
    (match widthOf (wsel s) with
    | none => .error .wsel
    | some W =>
      if tlen s .t0 > W then .error .txtOvf
      else withText s .t0 (fun t0 => .ok ([0x76] ++ ljust W t0) 0 0))

/-- R178. -/
def execNextv (s : State) : Host.Outcome State Fault Refusal := complete (payloadNextv s) s

/-- R179: `xV`, the sign byte and 3 digits. -/
def payloadDelay (s : State) : Built := numberField s [0x78, 0x56, signByte (sgn s)] 3

/-- R179. -/
def execDelay (s : State) : Host.Outcome State Fault Refusal := complete (payloadDelay s) s

end Sys2Proof.Machine
end

