-- ==== Sys2Proof/Machine/Framer.lean ====
section
/-! DEFINITION. FRAMERAW, the Framer alone (spec/44_framer.md R236). The Framer itself is `frame` of Codec. -/

namespace Sys2Proof.Machine

/-- R236: the raw payload is T0 as it stands. -/
def payloadFrameraw (s : State) : Built := checkLen s .t0 (withText s .t0 (fun t0 => .ok t0 0 0))

/-- R236. -/
def execFrameraw (s : State) : Host.Outcome State Fault Refusal := complete (payloadFrameraw s) s

end Sys2Proof.Machine
end

