-- ==== Sys2Proof/Machine/Catalog.lean ====
section
/-! DEFINITION. `payload(c)` for every command (spec/40_command_cycle.md R130) and whether the engine's step is enabled
(R123). The completion of a command is `exec`; what stands here is read where a payload is needed without a completion:
by the enabledness of R123 and by the truncated frame of a reset (spec/70_reset_and_hazards.md R282). -/

namespace Sys2Proof.Machine

/-- R130: the encoder of each command. -/
def payload (i : Instr) (s : State) : Built :=
  match i with
  | .line => payloadLine s
  | .linex => payloadLinex s
  | .course => payloadCourse s
  | .destid => payloadDestid s
  | .ticket => payloadTicket s
  | .time => payloadTime s
  | .date => payloadDate s
  | .nextv => payloadNextv s
  | .delay => payloadDelay s
  | .desttxt => payloadDesttxt s
  | .nextstop => payloadNextstop s
  | .addrdest => payloadAddrdest s
  | .lineprog => payloadLineprog s
  | .screen => payloadScreen s
  | .frameraw => payloadFrameraw s

/-- R130: `payload(CMD)`; any other code is `Error(E_ILLEGAL_CMD)` (R252). -/
def payloadOfCmd (s : State) : Built :=
  match decode s.cmd with
  | .ok i => payload i s
  | .error _ => .error .illegalCmd

/-- R123: the completion step is enabled only while BUSY = 1; an error needs nothing more, a success needs the sink to
accept. -/
def engineEnabled (s : State) : Bool := s.status.busy && (s.sinkReady || (payloadOfCmd s).isError)

/-- One text buffer with a draw in each of its first TLENk bytes that is unwritten. -/
def fillText (k : TextIdx) (d : Nat) (s : State) : State :=
  if tlen s k > textCap s then s else { s with mem := memFill s.mem (tbufBase k) (tlen s k) d }

/-- The state with draws in place of the unwritten bytes of the texts. R129: the hardware uses an unspecified byte
value. -/
def filledTexts (s : State) : State :=
  fillText .t2 (s.draws + 2 * textCap s) (fillText .t1 (s.draws + textCap s) (fillText .t0 s.draws s))

/-- R282: what the sink had received of the pending command's frame when reset came: `sent` bytes of it, if the command
would have succeeded. No byte is no entry of OUT; a prefix is recorded as truncated. -/
def cutFrame (sent : Nat) (s : State) : List Emission :=
  if s.status.busy then
    match payloadOfCmd (filledTexts s) with
    | .ok p _ _ => if sent = 0 then [] else [{ bytes := (frame p).take sent, truncated := true }]
    | .error _ => []
    | .unwritten => []
  else []

/-- R280 to R283: the reset input. Every register takes its value of R41; TCAP is hardwired; ACC is unspecified, a draw; OUT is
kept, with what R282 adds. The host, the sink and the order of turns are not the block's to reset. -/
def resetBlock (sent : Nat) (s : State) : State :=
  { s with
    cmd := 0x00
    status := { busy := false, done := false, err := false, wign := false, hibit := false }
    errcode := 0x00
    addr := 0x00
    argf := 0
    num0 := 0x00
    num1 := 0x00
    num2 := 0
    tlen0Lo := 0x00
    tlen0Hi := 0x00
    tlen1Lo := 0x00
    tlen1Hi := 0x00
    tlen2Lo := 0x00
    tlen2Hi := 0x00
    nblk := 0x00
    rem := 0x00
    flen := 0x0000
    csum := 0x00
    mem := []
    acc := Config.drawByte (s.draws + 3 * textCap s)
    out := s.out ++ cutFrame sent s
    draws := s.draws + 3 * textCap s + 1 }

end Sys2Proof.Machine
end

