-- ==== Sys2Proof/Machine/Dispatch.lean ====
section
/-! DEFINITION. `exec`: the completion of each command (spec/40_command_cycle.md R125, R130). -/

namespace Sys2Proof.Machine

def exec (i : Instr) (s : State) : Host.Outcome State Fault Refusal :=
  match i with
  | .line => Sys2Proof.Machine.execLine s
  | .linex => Sys2Proof.Machine.execLinex s
  | .course => Sys2Proof.Machine.execCourse s
  | .destid => Sys2Proof.Machine.execDestid s
  | .ticket => Sys2Proof.Machine.execTicket s
  | .time => Sys2Proof.Machine.execTime s
  | .date => Sys2Proof.Machine.execDate s
  | .nextv => Sys2Proof.Machine.execNextv s
  | .delay => Sys2Proof.Machine.execDelay s
  | .desttxt => Sys2Proof.Machine.execDesttxt s
  | .nextstop => Sys2Proof.Machine.execNextstop s
  | .addrdest => Sys2Proof.Machine.execAddrdest s
  | .lineprog => Sys2Proof.Machine.execLineprog s
  | .screen => Sys2Proof.Machine.execScreen s
  | .frameraw => Sys2Proof.Machine.execFrameraw s

end Sys2Proof.Machine
end

