-- ==== Sys2Proof/Machine/Agents.lean ====
section
/-! DEFINITION. The steps of the agents (spec/10_state.md R20): the host's bus accesses (spec/30_encoding.md R99), the
engine's completion (spec/40_command_cycle.md R123), the sink (R127) and the reset input (R280). -/

namespace Sys2Proof.Machine

/-- R99: one instruction of the host program. -/
def hostExec (i : HostInstr) (s : State) : State :=
  match i with
  | .wr a v => { busWrite a v s with hostPc := s.hostPc + 1, listing := s.listing ++ [.write a v] }
  | .rd a =>
    { (busRead a s).2 with
      h := (busRead a s).1, hostPc := s.hostPc + 1, listing := s.listing ++ [.read a (busRead a s).1] }
  | .bnz target mask => { s with hostPc := if s.h &&& mask ≠ 0 then target else s.hostPc + 1 }
  | .halt => s

/-- R99: the host's next instruction; a host whose program has ended does nothing. -/
def hostStep (s : State) : State :=
  match s.hostProg[s.hostPc]? with
  | some i => hostExec i s
  | none => s

/-- R123, R125: the engine's step: the completion of the pending command. While BUSY = 0 it is not enabled and changes
nothing (R267). An illegal code completes with E_ILLEGAL_CMD and reads no operand (R252). -/
def engineStep (s : State) : Host.Outcome State Fault Refusal :=
  if s.status.busy then
    match decode s.cmd with
    | .ok i => exec i s
    | .error _ => .next (errorCompletion .illegalCmd s)
  else .next s

/-- One agent's step, or the reset event. -/
def takeTurn (t : Turn) (s : State) : Host.Outcome State Fault Refusal :=
  match t with
  | .host => .next (hostStep s)
  | .engine => engineStep s
  | .sink accepts => .next { s with sinkReady := accepts }
  | .reset sent => .next (resetBlock sent s)

/-- Who moves when no turn is listed: the engine if its step is enabled, else the host. It is one schedule with the weak
fairness of R123, the synchronous one (spec/92_eei_decisions.md D8). DESIGN CHOICE, log entry 3. -/
def defaultTurn (s : State) : Turn := if engineEnabled s then .engine else .host

/-- R61, R74: the next turn, and the state with that turn taken from the list. -/
def nextTurn (s : State) : Turn × State :=
  match s.turns with
  | [] => (defaultTurn s, s)
  | t :: ts => (t, { s with turns := ts })

/-- R120: the command of a table word is issued and the engine has the next turn. -/
def issueForEngine (c : Byte) (s : State) : State := { issue c s with turns := .engine :: s.turns }

end Sys2Proof.Machine
end

