-- ==== Sys2Proof/Machine/Step.lean ====
section
/-! DEFINITION. One step of the machine: one bus access, one command completion, a change of the sink or a reset
(spec/00_scope.md R12). The block fetches no code (spec/10_state.md R21): a command comes to run because its code is
written to CMD (R120) and the engine then has a turn (R123). -/

namespace Sys2Proof.Machine

/-- R12, R20: one agent step, or the reset event. -/
def step (s : State) : Host.Outcome State Fault Refusal := takeTurn (nextTurn s).1 (nextTurn s).2

/-- `s` with the command of a table word issued (R120) and the engine's turn next, so that the next step completes it
(log entry 6). -/
def State.withFetchWord (s : State) (nbits w : Nat) : State :=
  issueForEngine ((tableBytes (nbits / 8) w).headD 0) s

end Sys2Proof.Machine
end

