-- ==== Sys2Proof/Machine/HostAsm.lean ====
section
/-! DEFINITION. The host assembly (spec/30_encoding.md R99, R100, R101): the pseudo-instructions, their expansions into bus
accesses, and the layout that turns labels into indices of the host program. It runs on the host, not on the block. -/

namespace Sys2Proof.Machine

/-- R99: the register names of R62 that stand for an address in the assembly. -/
inductive RegName where
  | cmd
  | status
  | errcode
  | addr
  | argf
  | num0
  | num1
  | num2
  | tlenLo (k : TextIdx)
  | tlenHi (k : TextIdx)
  | nblk
  | rem
  | flenLo
  | flenHi
  | csum
  | tcapLo
  | tcapHi
  deriving DecidableEq, Repr

/-- R62, R99: the address a register name stands for. -/
def regAddr : RegName → Addr
  | .cmd => 0x0000
  | .status => 0x0001
  | .errcode => 0x0002
  | .addr => 0x0003
  | .argf => 0x0004
  | .num0 => 0x0005
  | .num1 => 0x0006
  | .num2 => 0x0007
  | .tlenLo .t0 => 0x0008
  | .tlenHi .t0 => 0x0009
  | .tlenLo .t1 => 0x000A
  | .tlenHi .t1 => 0x000B
  | .tlenLo .t2 => 0x000C
  | .tlenHi .t2 => 0x000D
  | .nblk => 0x000E
  | .rem => 0x000F
  | .flenLo => 0x0010
  | .flenHi => 0x0011
  | .csum => 0x0012
  | .tcapLo => 0x0014
  | .tcapHi => 0x0015

/-- A line of host assembly after the pseudo-instructions are expanded, but for `wait` and `bnz`, which need the layout
of labels. Labels are numbers. -/
inductive AsmLine where
  /-- `L:` -/
  | label (l : Nat)
  /-- `wr A, V` -/
  | wr (a : Addr) (v : Byte)
  /-- `rd A` -/
  | rd (a : Addr)
  /-- `bnz L, M` -/
  | bnz (l : Nat) (mask : Byte)
  /-- `halt` -/
  | halt
  /-- `wait`: `Lw: rd STATUS` then `bnz Lw, 0x01` (Lw a fresh label) -/
  | wait
  deriving DecidableEq, Repr

/-- The pseudo-instructions of R100, beside the plain lines. The ranges of S and W (`setargf`, `nextv`, `delay`), which R100 does
not give, and the mnemonics that `number` and `text` take beyond R100's lists: DESIGN CHOICE, log entry 11. -/
inductive AsmItem where
  | plain (line : AsmLine)
  | setnum (n : BitVec 20)
  | setaddr (a : Byte)
  | setargf (g : BitVec 1) (w : BitVec 2)
  | settext (k : TextIdx) (s : Bytes)
  | issue (i : Instr)
  | send (i : Instr)
  /-- `LINE N`, `LINEX N`, `COURSE N`, `DESTID N`, `TICKET N`, `TIME N`, `DATE N`: the mnemonic and N. -/
  | number (i : Instr) (n : BitVec 20)
  | nextv (w : BitVec 2) (s : Bytes)
  | delay (g : BitVec 1) (n : BitVec 20)
  /-- `DESTTXT "S"`, `NEXTSTOP "S"`, `FRAMERAW "S"`: the mnemonic and S. -/
  | text (i : Instr) (s : Bytes)
  | addrdest (a : Byte) (s : Bytes)
  | lineprog (a : Byte) (i s c : Bytes)
  | screen (a : Byte) (l1 l2 : Bytes)
  deriving DecidableEq, Repr

/-- R100: `setnum N`. -/
def asmSetnum (n : BitVec 20) : List AsmLine :=
  [.wr (regAddr .num0) (n.extractLsb' 0 8), .wr (regAddr .num1) (n.extractLsb' 8 8),
    .wr (regAddr .num2) ((n.extractLsb' 16 4).setWidth 8)]

/-- R100: `setaddr A`. -/
def asmSetaddr (a : Byte) : List AsmLine := [.wr (regAddr .addr) a]

/-- R100: `setargf S, W`, the byte `(W << 1) | S`. R100 gives no range for S or W. S is the one bit of SGN and W the two bits
of WSEL (R24, R94), and a larger S or W has no form: DESIGN CHOICE, log entry 11. -/
def asmSetargf (g : BitVec 1) (w : BitVec 2) : List AsmLine := [.wr (regAddr .argf) ((w ++ g).setWidth 8)]

/-- R100: the bytes of a text, from host address `a` upwards. An address above 0xFFFF wraps: DESIGN CHOICE, log entry 11. -/
def asmBytes : Nat → Bytes → List AsmLine
  | _, [] => []
  | a, b :: bs => .wr (BitVec.ofNat 16 a) b :: asmBytes (a + 1) bs

/-- R100: `settext K, "S"`. -/
def asmSettext (k : TextIdx) (s : Bytes) : List AsmLine :=
  asmBytes (tbufBase k) s ++
    [.wr (regAddr (.tlenLo k)) ((BitVec.ofNat 16 s.length).extractLsb' 0 8),
      .wr (regAddr (.tlenHi k)) ((BitVec.ofNat 16 s.length).extractLsb' 8 8)]

/-- R100: `issue M`. -/
def asmIssue (i : Instr) : List AsmLine := [.wr (regAddr .cmd) (encode i)]

/-- R100: `send M`. -/
def asmSend (i : Instr) : List AsmLine := asmIssue i ++ [.wait]

/-- R100: the expansion of an item. -/
def asmExpand : AsmItem → List AsmLine
  | .plain line => [line]
  | .setnum n => asmSetnum n
  | .setaddr a => asmSetaddr a
  | .setargf g w => asmSetargf g w
  | .settext k s => asmSettext k s
  | .issue i => asmIssue i
  | .send i => asmSend i
  | .number i n => asmSetnum n ++ asmSend i
  | .nextv w s => asmSetargf 0 w ++ asmSettext .t0 s ++ asmSend .nextv
  | .delay g n => asmSetargf g 0 ++ asmSetnum n ++ asmSend .delay
  | .text i s => asmSettext .t0 s ++ asmSend i
  | .addrdest a s => asmSetaddr a ++ asmSettext .t0 s ++ asmSend .addrdest
  | .lineprog a i s c =>
    asmSetaddr a ++ asmSettext .t0 i ++ asmSettext .t1 s ++ asmSettext .t2 c ++ asmSend .lineprog
  | .screen a l1 l2 => asmSetaddr a ++ asmSettext .t0 l1 ++ asmSettext .t1 l2 ++ asmSend .screen

/-- How many real instructions a line becomes. -/
def asmSize : AsmLine → Nat
  | .label _ => 0
  | .wait => 2
  | .wr _ _ | .rd _ | .bnz _ _ | .halt => 1

/-- The index that label `l` stands for, the lines starting at index `here`; a label that no line defines stands for the end
of the program, and a label that several lines define stands for the first of them. The spec leaves both open: DESIGN CHOICE,
log entry 11. -/
def asmLabel (l : Nat) : Nat → List AsmLine → Nat
  | here, [] => here
  | here, .label l' :: rest => if l = l' then here else asmLabel l here rest
  | here, line :: rest => asmLabel l (here + asmSize line) rest

/-- The real instructions of the lines from index `here` on, with labels looked up in the whole program `all`. -/
def asmLayout (all : List AsmLine) : Nat → List AsmLine → List HostInstr
  | _, [] => []
  | here, .label _ :: rest => asmLayout all here rest
  | here, .wr a v :: rest => .wr a v :: asmLayout all (here + 1) rest
  | here, .rd a :: rest => .rd a :: asmLayout all (here + 1) rest
  | here, .bnz l mask :: rest => .bnz (asmLabel l 0 all) mask :: asmLayout all (here + 1) rest
  | here, .halt :: rest => .halt :: asmLayout all (here + 1) rest
  | here, .wait :: rest => .rd (regAddr .status) :: .bnz here 0x01 :: asmLayout all (here + 2) rest

/-- R99, R100: the host program of a listing of items. -/
def assemble (items : List AsmItem) : List HostInstr :=
  asmLayout (items.flatMap asmExpand) 0 (items.flatMap asmExpand)

/-- The digit of `n % 16` in hex, as R101's listing writes it. -/
def hexDigit (n : Nat) : Char := ['0', '1', '2', '3', '4', '5', '6', '7', '8', '9', 'A', 'B', 'C', 'D', 'E', 'F'].getD (n % 16) '0'

/-- A number in `digits` hex digits, the most significant first. -/
def hexDigits : Nat → Nat → List Char
  | 0, _ => []
  | digits + 1, n => hexDigits digits (n / 16) ++ [hexDigit n]

/-- R101: a bus transaction as the listing writes it, `W AAAA VV` for a write and `R AAAA` for a read. -/
def listingLine : Transaction → List Char
  | .write a v => ['W', ' '] ++ hexDigits 4 a.toNat ++ [' '] ++ hexDigits 2 v.toNat
  | .read a _ => ['R', ' '] ++ hexDigits 4 a.toNat

end Sys2Proof.Machine
end

