-- ==== Sys2Proof/Safety.lean ====
section
/-! DEFINITION. The terms claims are stated in: which texts and frames a state holds, what a successful and a failed
completion are, which operands a command reads, and the invariants of the machine. A run is safe when no step of it
faults; the only fault is a completion that reads an unwritten text byte (spec/40_command_cycle.md R129). -/

namespace Sys2Proof.Machine

/-- R5: 16 ≤ TEXT_CAP ≤ 1020. -/
def CapOk (s : State) : Prop := 16 ≤ textCap s ∧ textCap s ≤ 1020

/-- R35: the number k of TBUF[k]. -/
def textNumber : TextIdx → Nat
  | .t0 => 0
  | .t1 => 1
  | .t2 => 2

/-- R93: text `k` is written and is the string `t`. -/
def TextHolds (s : State) (k : TextIdx) (t : Bytes) : Prop :=
  tlen s k = t.length ∧ ∀ j, j < t.length → memLookup s.mem (tbufBase k + j) = t[j]?

/-- R129: some byte of text `k` is unwritten since reset. -/
def TextUnwritten (s : State) (k : TextIdx) : Prop :=
  ∃ j, j < tlen s k ∧ memLookup s.mem (tbufBase k + j) = none

/-- R36, R72: FBUF holds the string `f` and no specified byte after it. -/
def FbufHolds (s : State) (f : Bytes) : Prop :=
  ∀ j, j < frameCap (textCap s) → memLookup s.mem (fbufBase + j) = f[j]?

/-- Every byte of memory outside the FBUF window is the same in `t` as in `s`. -/
def MemSameOutsideFbuf (s t : State) : Prop :=
  ∀ a, inFbuf (textCap s) a = false → memLookup t.mem a = memLookup s.mem a

/-- R126: command `i` completes in `s` with raw payload `p`: the frame is emitted and held in FBUF, the result registers
describe it, and nothing else changes. -/
def Succeeds (i : Instr) (s : State) (p : Bytes) (nb rem : Nat) : Prop :=
  ∃ t, exec i s = .next t ∧
    t.status = { busy := false, done := true, err := false, wign := s.status.wign, hibit := hibit (remap p) } ∧
    t.errcode = 0x00 ∧ t.nblk.toNat = nb ∧ t.rem.toNat = rem ∧ t.flen.toNat = (frame p).length ∧
    t.csum = checksum p ∧ t.acc = checksum p ∧ t.out = s.out ++ [{ bytes := frame p, truncated := false }] ∧
    FbufHolds t (frame p) ∧ MemSameOutsideFbuf s t ∧
    t = { s with
      status := t.status, errcode := t.errcode, nblk := t.nblk, rem := t.rem, flen := t.flen, csum := t.csum,
      acc := t.acc, out := t.out, mem := t.mem }

/-- R128: `o` is the completion of a command in `s` with the error code `e`: FLEN is 0, FBUF is unspecified, no frame is
emitted, and nothing else changes. -/
def FailsFrom (o : Host.Outcome State Fault Refusal) (s : State) (e : Byte) : Prop :=
  ∃ t, o = .next t ∧
    t.status = { busy := false, done := true, err := true, wign := s.status.wign, hibit := s.status.hibit } ∧
    t.errcode = e ∧ t.flen = 0 ∧ FbufHolds t [] ∧ MemSameOutsideFbuf s t ∧
    t = { s with status := t.status, errcode := t.errcode, flen := t.flen, mem := t.mem }

/-- R128: command `i` fails in `s` with the error code `e`. -/
def FailsWith (e : Byte) (i : Instr) (s : State) : Prop := FailsFrom (exec i s) s e

/-- R91, column T0, T1, T2: the texts a command reads. -/
def readsText : Instr → TextIdx → Bool
  | .nextv, .t0 | .desttxt, .t0 | .nextstop, .t0 | .addrdest, .t0 | .frameraw, .t0 => true
  | .screen, .t0 | .screen, .t1 => true
  | .lineprog, _ => true
  | _, _ => false

/-- R91, column ADDR. -/
def readsAddr : Instr → Bool
  | .addrdest | .lineprog | .screen => true
  | _ => false

/-- R91, column NUM. -/
def readsNum : Instr → Bool
  | .line | .linex | .course | .destid | .ticket | .time | .date | .delay => true
  | _ => false

/-- R91: two states agree on every operand that command `i` reads. -/
def SameOperands (i : Instr) (s t : State) : Prop :=
  s.tcap = t.tcap ∧ (readsAddr i = true → s.addr = t.addr) ∧ (readsNum i = true → num s = num t) ∧
  (i = .delay → sgn s = sgn t) ∧ (i = .nextv → wsel s = wsel t) ∧
  ∀ k, readsText i k = true →
    tlen s k = tlen t k ∧ ∀ j, j < tlen s k → memLookup s.mem (tbufBase k + j) = memLookup t.mem (tbufBase k + j)

/-- R95, column "wire prefix". -/
def wirePrefix : Instr → Bytes
  | .line => [0x6C]
  | .linex => [0x71]
  | .course => [0x6B]
  | .destid => [0x7A]
  | .ticket => [0x65]
  | .time => [0x75]
  | .date => [0x64]
  | .nextv => [0x76]
  | .delay => [0x78, 0x56]
  | .desttxt => [0x7A, 0x41]
  | .nextstop => [0x7A, 0x49]
  | .addrdest => [0x61, 0x41]
  | .lineprog => [0x61, 0x4C]
  | .screen => [0x61, 0x41]
  | .frameraw => []

/-- R63: the reserved addresses of the map of R62, when TEXT_CAP = `cap`. -/
def ReservedAddr (cap n : Nat) : Prop :=
  n = 0x0013 ∨ (0x0016 ≤ n ∧ n ≤ 0x0FFF) ∨
  (∃ k, 0x1000 + 0x400 * textNumber k + cap ≤ n ∧ n < 0x1000 + 0x400 * textNumber k + 0x400) ∨
  (0x1C00 ≤ n ∧ n ≤ 0x1FFF) ∨ (0x2000 + frameCap cap ≤ n ∧ n ≤ 0x2FFF) ∨ 0x3000 ≤ n

/-- R63: the addresses of the read-only registers, when TEXT_CAP = `cap`. -/
def ReadOnlyAddr (cap n : Nat) : Prop :=
  n = 0x0002 ∨ (0x000E ≤ n ∧ n ≤ 0x0012) ∨ n = 0x0014 ∨ n = 0x0015 ∨ (0x2000 ≤ n ∧ n < 0x2000 + frameCap cap)

/-- R121: the busy-locked addresses, when TEXT_CAP = `cap`. -/
def LockedAddr (cap n : Nat) : Prop :=
  n = 0x0000 ∨ (0x0003 ≤ n ∧ n ≤ 0x000D) ∨
  ∃ k, 0x1000 + 0x400 * textNumber k ≤ n ∧ n < 0x1000 + 0x400 * textNumber k + cap

/-- R122: the addresses whose reads are unspecified while BUSY = 1, when TEXT_CAP = `cap`. -/
def ResultAddr (cap n : Nat) : Prop :=
  n = 0x0002 ∨ (0x000E ≤ n ∧ n ≤ 0x0012) ∨ (0x2000 ≤ n ∧ n < 0x2000 + frameCap cap)

/-- R28: the legal combinations of the STATUS flags. -/
def StatusLegal (st : Status) : Prop :=
  (st.busy = true → st.done = false ∧ st.err = false ∧ st.hibit = false) ∧
  (st.busy = false → st.done = false → st.err = false ∧ st.hibit = false) ∧
  ¬(st.err = true ∧ st.hibit = true)

/-- R62: every byte that holds a value lies in a TBUF or in FBUF. -/
def MemMapped (s : State) : Prop :=
  ∀ c ∈ s.mem, (∃ k, inTbuf (textCap s) k c.1 = true) ∨ inFbuf (textCap s) c.1 = true

/-- R235: the self-check of a frame, the XOR of its bytes with the seed. -/
def SelfChecks (f : Bytes) : Prop := accFold 0x7F f = 0x00

/-- R127, R235, R282: every whole frame handed over has a terminator and a checksum and passes the self-check; a
truncated entry holds at least one byte. -/
def HistoryLegal (out : List Emission) : Prop :=
  ∀ e ∈ out, (e.truncated = false → (∃ q c, e.bytes = q ++ [0x0D, c]) ∧ SelfChecks e.bytes) ∧
    (e.truncated = true → e.bytes ≠ [])

/-- R29, R32, R33, R36, R72, R251, and R41 before the first command: what the result registers and FBUF hold, by the flags
of STATUS. -/
def ResultsMatch (s : State) : Prop :=
  (s.status.busy = true → s.errcode = 0x00) ∧
  (s.status.busy = false → s.status.done = false →
    s.errcode = 0x00 ∧ s.flen = 0 ∧ s.csum = 0x00 ∧ s.nblk = 0x00 ∧ s.rem = 0x00 ∧ FbufHolds s []) ∧
  (s.status.busy = false → s.status.done = true → s.status.err = true →
    1 ≤ s.errcode.toNat ∧ s.errcode.toNat ≤ 5 ∧ s.flen = 0 ∧ FbufHolds s []) ∧
  (s.status.busy = false → s.status.done = true → s.status.err = false →
    s.errcode = 0x00 ∧ ∃ f, s.out.getLast? = some { bytes := f, truncated := false } ∧ s.flen.toNat = f.length ∧
      2 ≤ f.length ∧ f.length ≤ frameCap (textCap s) ∧ f.getLast? = some s.csum ∧ FbufHolds s f)

/-- The invariant of the machine. -/
structure MachineInv (s : State) : Prop where
  cap : CapOk s
  canonical : s.mem.wf
  mapped : MemMapped s
  status : StatusLegal s.status
  results : ResultsMatch s
  history : HistoryLegal s.out

/-- No text that the pending command reads has an unwritten byte (R284 step 1). -/
def TextsWritten (s : State) : Prop :=
  ∀ i k, decode s.cmd = .ok i → readsText i k = true → ¬TextUnwritten s k

/-- A run of `n` steps from `s` meets no fault. -/
def SafeRun (n : Nat) (s : State) : Prop := ∀ f, Sys2Proof.core.run n s ≠ .fault f

end Sys2Proof.Machine
end

