-- ==== Sys2Proof/Certificates/Slice0/Obligations.lean ====
section
/-! DEFINITION. The statements about the model, for the provers. Each docstring names the rules of spec/ it states. -/

open Sys2Proof Sys2Proof.Machine

/-! ## Encoding -/

/-- R95: the code and the wire prefix of each command: the decoder reads each code as its command, and the raw payload of
a command begins with its prefix. -/
def Obligations.OpcodeMapCodesAndPrefixes : Prop :=
  (decode 0x01 = .ok .line ∧ decode 0x02 = .ok .linex ∧ decode 0x03 = .ok .course ∧ decode 0x04 = .ok .destid ∧
    decode 0x05 = .ok .ticket ∧ decode 0x06 = .ok .time ∧ decode 0x07 = .ok .date ∧ decode 0x08 = .ok .nextv ∧
    decode 0x09 = .ok .delay ∧ decode 0x0A = .ok .desttxt ∧ decode 0x0B = .ok .nextstop ∧
    decode 0x0C = .ok .addrdest ∧ decode 0x0D = .ok .lineprog ∧ decode 0x0E = .ok .screen ∧
    decode 0x0F = .ok .frameraw) ∧
  ∀ i s p nb rem, payload i s = .ok p nb rem → wirePrefix i <+: p

/-- Words written out from R95: one command of each family (fixed-format, block-structured, Framer) and two illegal
bytes. -/
def Obligations.WordsDecodeToTheirCommands : Prop :=
  decodeBytes [0b00000001] = .ok (.line, []) ∧ decodeBytes [0b00001001, 0xAA] = .ok (.delay, [0xAA]) ∧
  decodeBytes [0b00001101] = .ok (.lineprog, []) ∧ decodeBytes [0b00001111] = .ok (.frameraw, []) ∧
  decodeBytes [0b00000000] = .error (.illegalCode 0x00) ∧ decodeBytes [0b00010000] = .error (.illegalCode 0x10)

/-- R90, R95: encode and decode are inverse on the commands, and no byte but a command's code decodes to it. -/
def Obligations.DecodeAndEncodeAgree : Prop :=
  (∀ i, decode (encode i) = .ok i) ∧ ∀ c i, decode c = .ok i → encode i = c

/-- R96, R252: an illegal code is issued like any other while BUSY = 0; the engine completes it with E_ILLEGAL_CMD,
without a frame, whatever the operands and the sink. -/
def Obligations.IllegalCodeFailsAtCompletion : Prop :=
  ∀ c : Byte, (c.toNat = 0 ∨ 0x10 ≤ c.toNat) →
    (∀ s, s.status.busy = false → busWrite 0x0000 c s = issue c s) ∧
    ∀ s, s.status.busy = true → s.cmd = c → FailsFrom (engineStep s) s 0x01

/-! ## The step -/

/-- A STEP RUNS THE DECODED COMMAND (R123, R125): while BUSY = 1 and CMD decodes to `i`, a step in which the engine has the
turn is `exec i`. The turn listed first is taken from the list; with no turn listed, the engine has the turn when the sink
accepts or the command fails (the model's choice, log entry 3). -/
def Obligations.StepRunsDecodedCommand : Prop :=
  ∀ s i, s.status.busy = true → decode s.cmd = .ok i →
    (∀ ts, s.turns = .engine :: ts → step s = exec i { s with turns := ts }) ∧
    (s.turns = [] → (s.sinkReady = true ∨ ∃ e, payload i s = .error e) → step s = exec i s)

/-- The model's order of turns (log entry 3): the turn listed first is taken; the host's turn runs its next instruction, the
engine's turn is the engine's step, a sink turn sets whether the sink accepts, and a reset turn resets. With no turn listed
the engine's step is taken exactly when it is enabled (R123: while BUSY = 1, when the sink accepts or the command fails, an
illegal code among the failures), and else the host moves. The engine's step changes nothing while BUSY = 0 (R267), and while
BUSY = 1 it is `exec` of the decoded command, or an error completion for an illegal code. -/
def Obligations.StepTakesTheListedTurn : Prop :=
  ∀ s,
    (∀ ts,
      (s.turns = .host :: ts → step s = .next (hostStep { s with turns := ts })) ∧
      (s.turns = .engine :: ts → step s = engineStep { s with turns := ts }) ∧
      (∀ b, s.turns = .sink b :: ts → step s = .next { s with turns := ts, sinkReady := b }) ∧
      ∀ n, s.turns = .reset n :: ts → step s = .next (resetBlock n { s with turns := ts })) ∧
    (s.turns = [] → engineEnabled s = true → step s = engineStep s) ∧
    (s.turns = [] → engineEnabled s = false → step s = .next (hostStep s)) ∧
    (engineEnabled s = true ↔
      s.status.busy = true ∧ (s.sinkReady = true ∨ ∃ e, payloadOfCmd s = .error e)) ∧
    (s.status.busy = false → engineStep s = .next s) ∧
    (∀ i, s.status.busy = true → decode s.cmd = .ok i → engineStep s = exec i s) ∧
    ∀ e, s.status.busy = true → decode s.cmd = .error e → engineStep s = .next (errorCompletion .illegalCmd s)

/-- R129: the only fault is the completion of a command that reads an unwritten text byte, and no step is refused. -/
def Obligations.OnlyUnwrittenTextFaults : Prop :=
  ∀ s, (∀ r, step s ≠ .refused r) ∧
    ∀ f, step s = .fault f → f = .unwrittenText ∧ s.status.busy = true ∧ ¬TextsWritten s

/-! ## Reset -/

/-- R41, R280, R283: reset sets every register to its reset value, leaves every TBUF and FBUF byte without a value and no
command pending, keeps TCAP, takes back no frame of OUT, and touches neither the host, the sink nor the turns. ACC has no
specified value. The turns and the sink are the model's own fields (log entries 3 and 5). -/
def Obligations.ResetSetsEveryRegister : Prop :=
  ∀ n s, ∃ t, resetBlock n s = t ∧
    t.cmd = 0x00 ∧ statusWord t.status = 0x00 ∧ t.errcode = 0x00 ∧ t.addr = 0x00 ∧ t.argf = 0 ∧ num t = 0 ∧
    t.num0 = 0x00 ∧ t.num1 = 0x00 ∧ t.num2 = 0 ∧ (∀ k, tlen t k = 0) ∧ t.nblk = 0x00 ∧ t.rem = 0x00 ∧ t.flen = 0 ∧
    t.csum = 0x00 ∧ t.tcap = s.tcap ∧ (∀ a, memLookup t.mem a = none) ∧ pending t = none ∧ s.out <+: t.out ∧
    (s.status.busy = false → t.out = s.out) ∧ t.h = s.h ∧ t.hostProg = s.hostProg ∧ t.hostPc = s.hostPc ∧
    t.listing = s.listing ∧ t.sinkReady = s.sinkReady ∧ t.turns = s.turns

/-- The state the machine starts in: R41 with the reference TEXT_CAP of R5 (log entry 1), and the model's own choices (log
entries 3 and 5): nothing handed over yet, a sink that accepts, an empty host program, no turn listed. -/
def Obligations.PowerOnState : Prop :=
  State.reset.tcap = 256 ∧ statusWord State.reset.status = 0x00 ∧ State.reset.cmd = 0x00 ∧ State.reset.mem = [] ∧
  State.reset.out = [] ∧ State.reset.sinkReady = true ∧ State.reset.hostProg = [] ∧ State.reset.turns = [] ∧
  pending State.reset = none

/-- R282: reset while a command is pending. A command that would have failed, an illegal code among them, leaves nothing in OUT.
A command that would have succeeded leaves nothing or a prefix of its frame marked truncated, and every length from 1 to
len(F) is the prefix of some draw. A command with an unwritten text byte leaves nothing or such a prefix of a frame built
from some bytes in place of the unwritten ones. Which outcome a draw n gives is the model's choice: 0 gives nothing, n the
first n bytes, n above len(F) the whole frame marked truncated (log entries 2 and 13). -/
def Obligations.ResetCutsThePendingFrame : Prop :=
  ∀ s, s.status.busy = true →
    (∀ e n, payloadOfCmd s = .error e → (resetBlock n s).out = s.out) ∧
    (∀ p nb rem, payloadOfCmd s = .ok p nb rem →
      (resetBlock 0 s).out = s.out ∧
      (∀ n, 1 ≤ n → (resetBlock n s).out = s.out ++ [{ bytes := (frame p).take n, truncated := true }]) ∧
      ∀ m, 1 ≤ m → m ≤ (frame p).length → ∃ n f, f <+: frame p ∧ f.length = m ∧
        (resetBlock n s).out = s.out ++ [{ bytes := f, truncated := true }]) ∧
    (payloadOfCmd s = .unwritten →
      ∃ u p nb rem, u = { s with mem := u.mem } ∧ (∀ a b, memLookup s.mem a = some b → memLookup u.mem a = some b) ∧
        payloadOfCmd u = .ok p nb rem ∧ (resetBlock 0 s).out = s.out ∧
        ∀ n, 1 ≤ n → (resetBlock n s).out = s.out ++ [{ bytes := (frame p).take n, truncated := true }])

/-! ## The host bus -/

/-- R63: a reserved address reads 0x00 and ignores writes; a read-only location ignores writes. Neither sets WIGN, whatever
the value of BUSY. -/
def Obligations.ReservedAndReadOnlyIgnoreWrites : Prop :=
  ∀ s, CapOk s → ∀ a : Addr,
    (ReservedAddr (textCap s) a.toNat → busRead a s = (0x00, s) ∧ ∀ v, busWrite a v s = s) ∧
    (ReadOnlyAddr (textCap s) a.toNat → ∀ v, busWrite a v s = s)

/-- R64: ARGF bits 7:3, NUM2 bits 7:4 and STATUS bits 7:5 read 0, and what is written to them has no effect. -/
def Obligations.ReservedBitsReadZero : Prop :=
  ∀ s, (∀ j, 3 ≤ j → (busRead 0x0004 s).1.getLsbD j = false) ∧ (∀ j, 4 ≤ j → (busRead 0x0007 s).1.getLsbD j = false) ∧
    (∀ j, 5 ≤ j → (busRead 0x0001 s).1.getLsbD j = false) ∧
    (∀ v w : Byte, v.extractLsb' 0 3 = w.extractLsb' 0 3 → busWrite 0x0004 v s = busWrite 0x0004 w s) ∧
    (∀ v w : Byte, v.extractLsb' 0 4 = w.extractLsb' 0 4 → busWrite 0x0007 v s = busWrite 0x0007 w s) ∧
    ∀ v w : Byte, v.extractLsb' 0 5 = w.extractLsb' 0 5 → busWrite 0x0001 v s = busWrite 0x0001 w s

/-- R23 to R26: a host write to an operand register while BUSY = 0 changes that register alone, and a read returns what was
written, with the reserved bits 0. -/
def Obligations.OperandRegistersReadBack : Prop :=
  ∀ s (v : Byte), s.status.busy = false →
    (busWrite 0x0003 v s = { s with addr := v } ∧ busRead 0x0003 (busWrite 0x0003 v s) = (v, busWrite 0x0003 v s)) ∧
    (busWrite 0x0004 v s = { s with argf := v.extractLsb' 0 3 } ∧
      busRead 0x0004 (busWrite 0x0004 v s) = (v &&& 0x07, busWrite 0x0004 v s)) ∧
    (busWrite 0x0005 v s = { s with num0 := v } ∧ busRead 0x0005 (busWrite 0x0005 v s) = (v, busWrite 0x0005 v s)) ∧
    (busWrite 0x0006 v s = { s with num1 := v } ∧ busRead 0x0006 (busWrite 0x0006 v s) = (v, busWrite 0x0006 v s)) ∧
    (busWrite 0x0007 v s = { s with num2 := v.extractLsb' 0 4 } ∧
      busRead 0x0007 (busWrite 0x0007 v s) = (v &&& 0x0F, busWrite 0x0007 v s)) ∧
    (busWrite 0x0008 v s = { s with tlen0Lo := v } ∧ busRead 0x0008 (busWrite 0x0008 v s) = (v, busWrite 0x0008 v s)) ∧
    (busWrite 0x0009 v s = { s with tlen0Hi := v } ∧ busRead 0x0009 (busWrite 0x0009 v s) = (v, busWrite 0x0009 v s)) ∧
    (busWrite 0x000A v s = { s with tlen1Lo := v } ∧ busRead 0x000A (busWrite 0x000A v s) = (v, busWrite 0x000A v s)) ∧
    (busWrite 0x000B v s = { s with tlen1Hi := v } ∧ busRead 0x000B (busWrite 0x000B v s) = (v, busWrite 0x000B v s)) ∧
    (busWrite 0x000C v s = { s with tlen2Lo := v } ∧ busRead 0x000C (busWrite 0x000C v s) = (v, busWrite 0x000C v s)) ∧
    (busWrite 0x000D v s = { s with tlen2Hi := v } ∧ busRead 0x000D (busWrite 0x000D v s) = (v, busWrite 0x000D v s))

/-- R65: multi-byte registers are little-endian: NUM and TLENk are their bytes, the byte at the lower address the less
significant, whatever the order in which the host writes them; FLEN_LO and TCAP_LO read the low bytes. -/
def Obligations.MultiByteRegistersAreLittleEndian : Prop :=
  ∀ s, s.status.busy = false →
    (∀ (b0 b1 b2 : Byte) (ws : List (Addr × Byte)),
      ws.Perm [(0x0005, b0), (0x0006, b1), (0x0007, b2)] →
      num (ws.foldl (fun u w => busWrite w.1 w.2 u) s) = b0.toNat + 256 * b1.toNat + 65536 * (b2.toNat % 16)) ∧
    (∀ (lo hi : Byte) (k : TextIdx) (ws : List (Addr × Byte)),
      ws.Perm [(BitVec.ofNat 16 (0x0008 + 2 * textNumber k), lo), (BitVec.ofNat 16 (0x0009 + 2 * textNumber k), hi)] →
      tlen (ws.foldl (fun u w => busWrite w.1 w.2 u) s) k = lo.toNat + 256 * hi.toNat) ∧
    s.flen.toNat = (busRead 0x0010 s).1.toNat + 256 * (busRead 0x0011 s).1.toNat ∧
    s.tcap.toNat = (busRead 0x0014 s).1.toNat + 256 * (busRead 0x0015 s).1.toNat

/-- R71: the TBUF windows: a host write sets that byte and no other, a host read returns it or, if it is unwritten, a draw;
above TEXT_CAP the window is reserved; while BUSY = 1 a write only sets WIGN. The form of a draw is the model's (log entry 2). -/
def Obligations.TextBufferWindows : Prop :=
  ∀ s k i, CapOk s → i < 0x400 → ∀ a : Addr, a.toNat = 0x1000 + 0x400 * textNumber k + i →
    (i < textCap s → ∀ v,
      (s.status.busy = false → ∃ t, busWrite a v s = t ∧ memLookup t.mem a.toNat = some v ∧
        (∀ x, x ≠ a.toNat → memLookup t.mem x = memLookup s.mem x) ∧ t = { s with mem := t.mem } ∧
        busRead a t = (v, t)) ∧
      (s.status.busy = true → busWrite a v s = { s with status := { s.status with wign := true } })) ∧
    (i < textCap s → ∀ v, memLookup s.mem a.toNat = some v → busRead a s = (v, s)) ∧
    (i < textCap s → memLookup s.mem a.toNat = none →
      busRead a s = (Config.drawByte s.draws, { s with draws := s.draws + 1 })) ∧
    (textCap s ≤ i → busRead a s = (0x00, s) ∧ ∀ v, busWrite a v s = s)

/-- R121: while BUSY = 1 a host write to a busy-locked location changes nothing but WIGN; writes to STATUS, to read-only
registers and to reserved addresses do the same whatever the value of BUSY. -/
def Obligations.BusyLockIgnoresWrites : Prop :=
  ∀ s (a : Addr) v, CapOk s → s.status.busy = true →
    (LockedAddr (textCap s) a.toNat → busWrite a v s = { s with status := { s.status with wign := true } }) ∧
    (a.toNat = 0x0001 →
      busWrite a v s = { s with status := { s.status with wign := s.status.wign && !v.getLsbD 3 } }) ∧
    (ReadOnlyAddr (textCap s) a.toNat ∨ ReservedAddr (textCap s) a.toNat → busWrite a v s = s)

/-- R28: a host write to STATUS clears WIGN if bit 3 of the byte is 1 and has no other effect, whatever BUSY is; a read returns
the five flags at bits 0 to 4. -/
def Obligations.StatusWriteClearsOnlyWign : Prop :=
  ∀ s (v : Byte),
    (v.getLsbD 3 = true → busWrite 0x0001 v s = { s with status := { s.status with wign := false } }) ∧
    (v.getLsbD 3 = false → busWrite 0x0001 v s = s) ∧
    (busRead 0x0001 s).1.toNat =
      s.status.busy.toNat + 2 * s.status.done.toNat + 4 * s.status.err.toNat + 8 * s.status.wign.toNat +
        16 * s.status.hibit.toNat

/-- R122: while BUSY = 1 the result locations read as draws, and every other register and every written TBUF byte as its
stored value. The form of a draw is the model's (log entry 2). -/
def Obligations.ReadsWhileBusy : Prop :=
  ∀ s (a : Addr), CapOk s → s.status.busy = true →
    (ResultAddr (textCap s) a.toNat →
      busRead a s = (Config.drawByte s.draws, { s with draws := s.draws + 1 })) ∧
    busRead 0x0000 s = (s.cmd, s) ∧ busRead 0x0001 s = (statusWord s.status, s) ∧ busRead 0x0003 s = (s.addr, s) ∧
    busRead 0x0004 s = (s.argf.setWidth 8, s) ∧ busRead 0x0005 s = (s.num0, s) ∧ busRead 0x0006 s = (s.num1, s) ∧
    busRead 0x0007 s = (s.num2.setWidth 8, s) ∧ busRead 0x0008 s = (s.tlen0Lo, s) ∧
    busRead 0x0009 s = (s.tlen0Hi, s) ∧ busRead 0x000A s = (s.tlen1Lo, s) ∧ busRead 0x000B s = (s.tlen1Hi, s) ∧
    busRead 0x000C s = (s.tlen2Lo, s) ∧ busRead 0x000D s = (s.tlen2Hi, s) ∧
    busRead 0x0014 s = (s.tcap.extractLsb' 0 8, s) ∧ busRead 0x0015 s = (s.tcap.extractLsb' 8 8, s) ∧
    ∀ k i v, i < textCap s → a.toNat = 0x1000 + 0x400 * textNumber k + i → memLookup s.mem a.toNat = some v →
      busRead a s = (v, s)

/-- R27, R29, R30, R31, R32, R33: while BUSY = 0 every register reads as its stored value, the results of the last completion
among them, whether it was a success or an error; the flags, the operand registers and TCAP read as they do while BUSY = 1. -/
def Obligations.ReadsWhileIdle : Prop :=
  ∀ s, s.status.busy = false →
    busRead 0x0000 s = (s.cmd, s) ∧ busRead 0x0001 s = (statusWord s.status, s) ∧ busRead 0x0002 s = (s.errcode, s) ∧
    busRead 0x0003 s = (s.addr, s) ∧ busRead 0x0004 s = (s.argf.setWidth 8, s) ∧ busRead 0x0005 s = (s.num0, s) ∧
    busRead 0x0006 s = (s.num1, s) ∧ busRead 0x0007 s = (s.num2.setWidth 8, s) ∧ busRead 0x0008 s = (s.tlen0Lo, s) ∧
    busRead 0x0009 s = (s.tlen0Hi, s) ∧ busRead 0x000A s = (s.tlen1Lo, s) ∧ busRead 0x000B s = (s.tlen1Hi, s) ∧
    busRead 0x000C s = (s.tlen2Lo, s) ∧ busRead 0x000D s = (s.tlen2Hi, s) ∧ busRead 0x000E s = (s.nblk, s) ∧
    busRead 0x000F s = (s.rem, s) ∧ busRead 0x0010 s = (s.flen.extractLsb' 0 8, s) ∧
    busRead 0x0011 s = (s.flen.extractLsb' 8 8, s) ∧ busRead 0x0012 s = (s.csum, s) ∧
    busRead 0x0014 s = (s.tcap.extractLsb' 0 8, s) ∧ busRead 0x0015 s = (s.tcap.extractLsb' 8 8, s)

/-- R69: a host read answers a value a rule gives and changes nothing, or a draw, which moves only the model's own count of draws
(log entry 2). It is a draw only at a result location while BUSY = 1 or at a mapped TBUF or FBUF byte that holds no value. A
write outside CMD, the other busy-locked locations and STATUS changes nothing, and a write anywhere but CMD leaves the same
state when it is done twice. -/
def Obligations.HostReadsHaveNoSideEffect : Prop :=
  ∀ s (a : Addr),
    ((busRead a s).2 = s ∨
      (busRead a s = (Config.drawByte s.draws, { s with draws := s.draws + 1 }) ∧
        ((s.status.busy = true ∧ ResultAddr (textCap s) a.toNat) ∨
          (((∃ k, inTbuf (textCap s) k a.toNat = true) ∨ inFbuf (textCap s) a.toNat = true) ∧
            memLookup s.mem a.toNat = none)))) ∧
    (¬LockedAddr (textCap s) a.toNat → a.toNat ≠ 0x0001 → ∀ v, busWrite a v s = s) ∧
    (a.toNat ≠ 0x0000 → ∀ v, busWrite a v (busWrite a v s) = busWrite a v s)

/-- R120: a host write to CMD while BUSY = 0 issues the command: CMD holds the code, which is pending; BUSY is 1; DONE, ERR,
HIBIT and ERRCODE are cleared; nothing else changes (WIGN, NBLK, REM, FLEN, CSUM and FBUF among it). -/
def Obligations.CommandIssue : Prop :=
  ∀ s (v : Byte), s.status.busy = false →
    busWrite 0x0000 v s =
      { s with
        cmd := v, errcode := 0x00
        status := { busy := true, done := false, err := false, wign := s.status.wign, hibit := false } } ∧
    pending (busWrite 0x0000 v s) = some v

/-- R72: while BUSY = 0 and FBUF holds the frame `f`, a host read of FBUF[i] returns `f[i]` for i < len(f) and a draw beyond
it (log entry 2); writes are ignored; above FRAME_CAP the window is reserved. While BUSY = 1 every FBUF read is a draw. -/
def Obligations.FrameBufferWindow : Prop :=
  ∀ s f i, CapOk s → FbufHolds s f → f.length ≤ frameCap (textCap s) → i < 0x1000 →
    ∀ a : Addr, a.toNat = 0x2000 + i →
      (∀ v, busWrite a v s = s) ∧
      (s.status.busy = false → ∀ h : i < f.length, busRead a s = (f[i], s)) ∧
      (f.length ≤ i ∨ s.status.busy = true → i < frameCap (textCap s) →
        busRead a s = (Config.drawByte s.draws, { s with draws := s.draws + 1 })) ∧
      (frameCap (textCap s) ≤ i → busRead a s = (0x00, s))

/-- R75: after a successful completion the host reads every result the completion wrote: STATUS with BUSY = 0, DONE = 1, ERR = 0 and
HIBIT by the payload (WIGN as it was), ERRCODE, NBLK, REM, FLEN, CSUM, and each byte of the frame in FBUF. -/
def Obligations.CompletionIsVisibleToReads : Prop :=
  ∀ i s t p nb rem, CapOk s → s.sinkReady = true → payload i s = .ok p nb rem → exec i s = .next t →
    (busRead 0x0001 t).2 = t ∧ (busRead 0x0001 t).1.getLsbD 0 = false ∧ (busRead 0x0001 t).1.getLsbD 1 = true ∧
    (busRead 0x0001 t).1.getLsbD 2 = false ∧ (busRead 0x0001 t).1.getLsbD 3 = s.status.wign ∧
    (busRead 0x0001 t).1.getLsbD 4 = hibit (remap p) ∧
    busRead 0x0002 t = (0x00, t) ∧ (busRead 0x000E t).1.toNat = nb ∧ (busRead 0x000F t).1.toNat = rem ∧
    (busRead 0x0010 t).1.toNat + 256 * (busRead 0x0011 t).1.toNat = (frame p).length ∧
    busRead 0x0012 t = (checksum p, t) ∧
    ∀ j, ∀ h : j < (frame p).length, busRead (BitVec.ofNat 16 (0x2000 + j)) t = ((frame p)[j], t)

/-- R75, R128, R251: after an error completion, of an illegal code among them, the host reads the error code in ERRCODE, 0 in FLEN,
NBLK, REM and CSUM as they were before the command, CMD as it was, and BUSY = 0, DONE = 1, ERR = 1 in STATUS with WIGN and
HIBIT as they were (HIBIT: log entry 14); every FBUF byte is a draw (log entry 2). -/
def Obligations.ErrorIsVisibleToReads : Prop :=
  ∀ s t e, CapOk s → s.status.busy = true → payloadOfCmd s = .error e → engineStep s = .next t →
    busRead 0x0000 t = (s.cmd, t) ∧ busRead 0x0002 t = (errByte e, t) ∧ busRead 0x000E t = (s.nblk, t) ∧
    busRead 0x000F t = (s.rem, t) ∧ busRead 0x0010 t = (0x00, t) ∧ busRead 0x0011 t = (0x00, t) ∧
    busRead 0x0012 t = (s.csum, t) ∧
    (busRead 0x0001 t).2 = t ∧ (busRead 0x0001 t).1.getLsbD 0 = false ∧ (busRead 0x0001 t).1.getLsbD 1 = true ∧
    (busRead 0x0001 t).1.getLsbD 2 = true ∧ (busRead 0x0001 t).1.getLsbD 3 = s.status.wign ∧
    (busRead 0x0001 t).1.getLsbD 4 = s.status.hibit ∧
    ∀ j, j < frameCap (textCap s) →
      busRead (BitVec.ofNat 16 (0x2000 + j)) t = (Config.drawByte t.draws, { t with draws := t.draws + 1 })

/-- R34: TCAP reads the parameter TEXT_CAP, writes to it are ignored, and no step changes it. -/
def Obligations.TcapIsHardwired : Prop :=
  ∀ s, busRead 0x0014 s = (s.tcap.extractLsb' 0 8, s) ∧ busRead 0x0015 s = (s.tcap.extractLsb' 8 8, s) ∧
    (∀ v, busWrite 0x0014 v s = s ∧ busWrite 0x0015 v s = s) ∧
    ∀ t, step s = .next t → t.tcap = s.tcap

/-- R71, R93: writing the bytes of a text to its window and its length to TLENk, while BUSY = 0, makes it the text a command
reads. -/
def Obligations.WrittenTextIsReadBack : Prop :=
  ∀ s k (t : Bytes), CapOk s → s.status.busy = false → t.length ≤ textCap s →
    TextHolds
      (((t.zipIdx 0).map (fun c => (BitVec.ofNat 16 (0x1000 + 0x400 * textNumber k + c.2), c.1)) ++
          [(BitVec.ofNat 16 (0x0008 + 2 * textNumber k), BitVec.ofNat 8 t.length),
            (BitVec.ofNat 16 (0x0009 + 2 * textNumber k), BitVec.ofNat 8 (t.length / 256))]).foldl
        (fun u w => busWrite w.1 w.2 u) s) k t

/-- R99: the host's instructions: `wr` performs one bus write, `rd` one bus read into `h`, `bnz` continues at its target when
`h & M` is not 0 and else at the next instruction, `halt` does nothing more. That the end of the program does nothing more
either is the model's choice (log entry 11). -/
def Obligations.HostInstructionsAct : Prop :=
  ∀ s,
    (∀ a v, s.hostProg[s.hostPc]? = some (.wr a v) →
      hostStep s = { busWrite a v s with hostPc := s.hostPc + 1, listing := s.listing ++ [.write a v] }) ∧
    (∀ a, s.hostProg[s.hostPc]? = some (.rd a) →
      hostStep s =
        { (busRead a s).2 with
          h := (busRead a s).1, hostPc := s.hostPc + 1, listing := s.listing ++ [.read a (busRead a s).1] }) ∧
    (∀ l m, s.hostProg[s.hostPc]? = some (.bnz l m) → s.h &&& m ≠ 0 → hostStep s = { s with hostPc := l }) ∧
    (∀ l m, s.hostProg[s.hostPc]? = some (.bnz l m) → s.h &&& m = 0 →
      hostStep s = { s with hostPc := s.hostPc + 1 }) ∧
    (s.hostProg[s.hostPc]? = some .halt ∨ s.hostProg[s.hostPc]? = none → hostStep s = s)

/-! ## The codec -/

/-- R141, R142: `hex` of a byte is its low symbol when the byte is below 16 and else the high and the low symbol; every output
byte is in 0x30..0x3F, and `hex` is injective. -/
def Obligations.HexNibbleEncoding : Prop :=
  (∀ v : Byte, (v.toNat < 16 → hex v = [BitVec.ofNat 8 (0x30 + v.toNat)]) ∧
    (16 ≤ v.toNat → hex v = [BitVec.ofNat 8 (0x30 + v.toNat / 16), BitVec.ofNat 8 (0x30 + v.toNat % 16)]) ∧
    ∀ b ∈ hex v, 0x30 ≤ b.toNat ∧ b.toNat ≤ 0x3F) ∧
  ∀ v w : Byte, hex v = hex w → v = w

/-- R143: `dec(W, n)` has W bytes, each a digit 0x30..0x39, the j-th the digit of 10^(W−1−j), and, when n < 10^W, the digits
denote n. -/
def Obligations.DecimalFieldDenotesNumber : Prop :=
  ∀ W n, (dec W n).length = W ∧ (∀ b ∈ dec W n, 0x30 ≤ b.toNat ∧ b.toNat ≤ 0x39) ∧
    (∀ j, ∀ h : j < (dec W n).length, ((dec W n)[j]).toNat = 0x30 + n / 10 ^ (W - 1 - j) % 10) ∧
    (n < 10 ^ W → (dec W n).foldl (fun v b => 10 * v + (b.toNat - 0x30)) 0 = n)

/-- R144: `ljust(W, s)` has W bytes: s and then spaces; it is s when len(s) = W. -/
def Obligations.LjustFillsTheField : Prop :=
  ∀ W (s : Bytes), s.length ≤ W →
    (ljust W s).length = W ∧ s <+: ljust W s ∧ (∀ j : Nat, s.length ≤ j → j < W → (ljust W s)[j]? = some (0x20 : Byte)) ∧
    (s.length = W → ljust W s = s)

/-- R145 to R148: the remap table; every other byte is unaltered; `remap` is bytewise, keeps length, is the identity on a
string with no table input byte, is idempotent, and is not injective. -/
def Obligations.RemapProperties : Prop :=
  (remapByte 0xE4 = 0x7B ∧ remapByte 0xF6 = 0x7C ∧ remapByte 0xFC = 0x7D ∧ remapByte 0xDF = 0x7E ∧
    remapByte 0xC4 = 0x5B ∧ remapByte 0xD6 = 0x5C ∧ remapByte 0xDC = 0x5D) ∧
  (∀ b : Byte, b ∉ ([0xE4, 0xF6, 0xFC, 0xDF, 0xC4, 0xD6, 0xDC] : Bytes) → remapByte b = b) ∧
  (∀ s : Bytes, (remap s).length = s.length ∧ (∀ j : Nat, (remap s)[j]? = s[j]?.map remapByte) ∧ remap (remap s) = remap s ∧
    ((∀ b ∈ s, b ∉ ([0xE4, 0xF6, 0xFC, 0xDF, 0xC4, 0xD6, 0xDC] : Bytes)) → remap s = s)) ∧
  ∃ s t : Bytes, s ≠ t ∧ remap s = remap t

/-- R149, R150, R151, R154: the block padder. -/
def Obligations.BlockPadding : Prop :=
  ∀ (s : Bytes) b, (b = 4 ∨ b = 16) →
    (pad s b).1 = (s.length + b - 1) / b ∧ (pad s b).2.length = (pad s b).1 * b ∧ (pad s b).2.length % b = 0 ∧
    (∃ n, n < b ∧ (pad s b).2 = s ++ List.replicate n 0x20) ∧ (s.length % b = 0 → (pad s b).2 = s) ∧
    pad [] b = (0, [])

/-- R155: every block count and remainder a command hands to `hex` is at most 255, with the bound of each command. -/
def Obligations.HexInputsAreInRange : Prop :=
  ∀ i s p nb rem, CapOk s → payload i s = .ok p nb rem →
    nb ≤ 255 ∧ rem ≤ 15 ∧ (i ≠ .lineprog → rem = 0) ∧
    (i = .desttxt → nb ≤ ceilDiv (textCap s) 16 ∧ nb ≤ 64) ∧ (i = .nextstop → nb ≤ ceilDiv (textCap s) 4) ∧
    (i = .addrdest → nb ≤ ceilDiv (textCap s) 4) ∧
    (i = .lineprog → nb ≤ ceilDiv (3 * textCap s + 3) 16 ∧ nb ≤ 192) ∧
    (i = .screen → nb ≤ ceilDiv (2 * textCap s + 3) 16 ∧ nb ≤ 128)

/-- R230, R232, R233, R234: a frame is the remapped payload, the terminator 0x0D and the checksum: the seed 0x7F XORed with every
byte before it. The order of the bytes does not matter to the checksum, and the frame is two bytes longer than the payload. -/
def Obligations.FrameLayout : Prop :=
  ∀ p : Bytes, ∃ c, frame p = remap p ++ [0x0D, c] ∧ c = checksum p ∧
    c = (remap p).foldl (fun x b => x ^^^ b) 0x7F ^^^ 0x0D ∧ (frame p).length = p.length + 2 ∧
    ∀ q, q.Perm p → checksum q = c

/-- R235: every frame passes the self-check; an error pattern of the same length, XORed into it, is missed exactly when the XOR of
its bytes is 0, so flipping any one bit is detected. -/
def Obligations.FrameSelfCheck : Prop :=
  ∀ p : Bytes, SelfChecks (frame p) ∧
    (∀ e : Bytes, e.length = (frame p).length →
      (SelfChecks (List.zipWith (fun x y => x ^^^ y) (frame p) e) ↔ accFold 0x00 e = 0x00)) ∧
    ∀ k b, b < 8 → k < (frame p).length →
      ¬SelfChecks ((frame p).modify k (fun x => x ^^^ BitVec.twoPow 8 b))

/-- R237: if every remapped payload byte is below 0x80, so is every frame byte; in every case bit 7 of the checksum is the parity
of the number of remapped payload bytes with bit 7 set. -/
def Obligations.ChecksumTopBitIsParity : Prop :=
  ∀ p : Bytes, ((∀ b ∈ remap p, b.toNat < 0x80) → ∀ b ∈ frame p, b.toNat < 0x80) ∧
    (checksum p).getLsbD 7 = decide (((remap p).countP (fun b => b.getLsbD 7)) % 2 = 1)

/-- R238: after a successful completion HIBIT says whether the remapped payload holds a byte ≥ 0x80, and the frame is emitted
unchanged either way. -/
def Obligations.HibitReportsHighBytes : Prop :=
  ∀ i s t p nb rem, s.sinkReady = true → payload i s = .ok p nb rem → exec i s = .next t →
    (t.status.hibit = true ↔ ∃ b ∈ remap p, 0x80 ≤ b.toNat) ∧
    t.out = s.out ++ [{ bytes := frame p, truncated := false }]

/-- R131: the size of the largest frame of each command; every frame has at least 2 bytes and fits FBUF. -/
def Obligations.FrameSizeBounds : Prop :=
  ∀ i s p nb rem, CapOk s → payload i s = .ok p nb rem →
    2 ≤ (frame p).length ∧ (frame p).length ≤ 3 * textCap s + 12 ∧ (frame p).length < frameCap (textCap s) ∧
    (i = .line ∨ i = .destid → (frame p).length ≤ 6) ∧ (i = .linex ∨ i = .time → (frame p).length ≤ 7) ∧
    (i = .course → (frame p).length ≤ 5) ∧ (i = .ticket → (frame p).length ≤ 9) ∧
    (i = .date ∨ i = .delay → (frame p).length ≤ 8) ∧ (i = .nextv → (frame p).length ≤ 27) ∧
    (i = .desttxt → (frame p).length ≤ textCap s + 21) ∧ (i = .nextstop → (frame p).length ≤ textCap s + 9) ∧
    (i = .addrdest → (frame p).length ≤ textCap s + 8) ∧ (i = .screen → (frame p).length ≤ 2 * textCap s + 26) ∧
    (i = .frameraw → (frame p).length ≤ textCap s + 2)

/-! ## The commands -/

/-- R170 to R177: what LINE, LINEX, COURSE, DESTID, TICKET, TIME and DATE do, given their code, their type letter and the width
of their number. -/
def NumberTelegram (i : Instr) (code : Byte) (letters : Bytes) (W : Nat) : Prop :=
  decode code = .ok i ∧ ∀ s,
    (num s ≤ 10 ^ W - 1 → s.sinkReady = true → Succeeds i s (letters ++ dec W (num s)) 0 0) ∧
    (10 ^ W - 1 < num s → FailsWith 0x04 i s)

/-- R171 to R177: LINE, LINEX, COURSE, DESTID, TICKET, TIME and DATE emit their letter and NUM in the digits of their field, and
fail with E_NUM_OVF when NUM does not fit; the only condition of a success is that the sink accepts. -/
def Obligations.NumberTelegramsComplete : Prop :=
  NumberTelegram .line 0x01 [0x6C] 3 ∧ NumberTelegram .linex 0x02 [0x71] 4 ∧ NumberTelegram .course 0x03 [0x6B] 2 ∧
  NumberTelegram .destid 0x04 [0x7A] 3 ∧ NumberTelegram .ticket 0x05 [0x65] 6 ∧ NumberTelegram .time 0x06 [0x75] 4 ∧
  NumberTelegram .date 0x07 [0x64] 5

/-- R178: NEXTV emits `v` and T0 padded to the width WSEL selects; its errors are E_TLEN, E_WSEL and E_TXT_OVF, in that order. -/
def Obligations.NextvCompletes : Prop :=
  decode 0x08 = .ok .nextv ∧ ∀ s,
    (tlen s .t0 > textCap s → FailsWith 0x02 .nextv s) ∧
    (tlen s .t0 ≤ textCap s → (wsel s).toNat = 3 → FailsWith 0x03 .nextv s) ∧
    ∀ W, ((wsel s).toNat = 0 ∧ W = 16) ∨ ((wsel s).toNat = 1 ∧ W = 20) ∨ ((wsel s).toNat = 2 ∧ W = 24) →
      tlen s .t0 ≤ textCap s →
        (tlen s .t0 > W → FailsWith 0x05 .nextv s) ∧
        ∀ t0, TextHolds s .t0 t0 → t0.length ≤ W → s.sinkReady = true →
          Succeeds .nextv s ([0x76] ++ t0 ++ List.replicate (W - t0.length) 0x20) 0 0

/-- R179: DELAY emits `xV`, `+` when SGN is 0 and `-` when it is 1, and NUM in 3 digits, and fails with E_NUM_OVF when NUM > 999. -/
def Obligations.DelayCompletes : Prop :=
  decode 0x09 = .ok .delay ∧ ∀ s,
    (num s ≤ 999 → s.sinkReady = true →
      ((sgn s).toNat = 0 → Succeeds .delay s ([0x78, 0x56, 0x2B] ++ dec 3 (num s)) 0 0) ∧
      ((sgn s).toNat = 1 → Succeeds .delay s ([0x78, 0x56, 0x2D] ++ dec 3 (num s)) 0 0)) ∧
    (999 < num s → FailsWith 0x04 .delay s)

/-- R201: DESTTXT emits `zA`, the count of 16-byte blocks and T0 padded to them, and fails with E_TLEN when TLEN0 > TEXT_CAP. -/
def Obligations.DesttxtCompletes : Prop :=
  decode 0x0A = .ok .desttxt ∧ ∀ s, CapOk s →
    (tlen s .t0 > textCap s → FailsWith 0x02 .desttxt s) ∧
    ∀ t0 nb, TextHolds s .t0 t0 → t0.length ≤ textCap s → nb = (t0.length + 15) / 16 → s.sinkReady = true →
      Succeeds .desttxt s
        ([0x7A, 0x41] ++ hex (BitVec.ofNat 8 nb) ++ t0 ++ List.replicate (nb * 16 - t0.length) 0x20) nb 0

/-- R202: NEXTSTOP emits `zI`, the count of 4-byte blocks and T0 padded to them, and fails with E_TLEN when TLEN0 > TEXT_CAP. -/
def Obligations.NextstopCompletes : Prop :=
  decode 0x0B = .ok .nextstop ∧ ∀ s, CapOk s →
    (tlen s .t0 > textCap s → FailsWith 0x02 .nextstop s) ∧
    ∀ t0 nb, TextHolds s .t0 t0 → t0.length ≤ textCap s → nb = (t0.length + 3) / 4 → s.sinkReady = true →
      Succeeds .nextstop s
        ([0x7A, 0x49] ++ hex (BitVec.ofNat 8 nb) ++ t0 ++ List.replicate (nb * 4 - t0.length) 0x20) nb 0

/-- R203, R206: ADDRDEST emits `aA`, the address, the count of 4-byte blocks and the whole of T0, neither padded nor cut, and fails
with E_TLEN when TLEN0 > TEXT_CAP. -/
def Obligations.AddrdestCompletes : Prop :=
  decode 0x0C = .ok .addrdest ∧ ∀ s, CapOk s →
    (tlen s .t0 > textCap s → FailsWith 0x02 .addrdest s) ∧
    ∀ t0 nb, TextHolds s .t0 t0 → t0.length ≤ textCap s → nb = (t0.length + 3) / 4 → s.sinkReady = true →
      Succeeds .addrdest s ([0x61, 0x41] ++ hex s.addr ++ hex (BitVec.ofNat 8 nb) ++ t0) nb 0 ∧
      t0.take (nb * 16) = t0

/-- R204: LINEPROG emits `aL`, the address, the count of 16-byte blocks and the remainder of the record, and the record
`\x03 T0 \x04 T1 \x05 T2`, and fails with E_TLEN when a text is longer than TEXT_CAP. -/
def Obligations.LineprogCompletes : Prop :=
  decode 0x0D = .ok .lineprog ∧ ∀ s, CapOk s →
    ((∃ k, tlen s k > textCap s) → FailsWith 0x02 .lineprog s) ∧
    ∀ t0 t1 t2 L, TextHolds s .t0 t0 → TextHolds s .t1 t1 → TextHolds s .t2 t2 → t0.length ≤ textCap s →
      t1.length ≤ textCap s → t2.length ≤ textCap s → L = 3 + t0.length + t1.length + t2.length → s.sinkReady = true →
      Succeeds .lineprog s
        ([0x61, 0x4C] ++ hex s.addr ++ hex (BitVec.ofNat 8 ((L + 15) / 16)) ++ hex (BitVec.ofNat 8 (L % 16)) ++
          [0x03] ++ t0 ++ [0x04] ++ t1 ++ [0x05] ++ t2) ((L + 15) / 16) (L % 16)

/-- R205: SCREEN emits `aA`, the address, the count of 16-byte blocks and the two lines, a line feed between them only when line 2
is not empty, two line feeds, and spaces to the block boundary; it fails with E_TLEN when a line is longer than
TEXT_CAP. -/
def Obligations.ScreenCompletes : Prop :=
  decode 0x0E = .ok .screen ∧ ∀ s, CapOk s →
    (tlen s .t0 > textCap s ∨ tlen s .t1 > textCap s → FailsWith 0x02 .screen s) ∧
    ∀ t0 t1 txt nb, TextHolds s .t0 t0 → TextHolds s .t1 t1 → t0.length ≤ textCap s → t1.length ≤ textCap s →
      (t1 = [] → txt = t0 ++ [0x0A, 0x0A]) → (t1 ≠ [] → txt = t0 ++ [0x0A] ++ t1 ++ [0x0A, 0x0A]) →
      nb = (txt.length + 15) / 16 → s.sinkReady = true →
      Succeeds .screen s
        ([0x61, 0x41] ++ hex s.addr ++ hex (BitVec.ofNat 8 nb) ++ txt ++
          List.replicate (nb * 16 - txt.length) 0x20) nb 0

/-- R236: FRAMERAW frames T0 as it stands, and fails with E_TLEN when TLEN0 > TEXT_CAP. -/
def Obligations.FramerawCompletes : Prop :=
  decode 0x0F = .ok .frameraw ∧ ∀ s, CapOk s →
    (tlen s .t0 > textCap s → FailsWith 0x02 .frameraw s) ∧
    ∀ t0, TextHolds s .t0 t0 → t0.length ≤ textCap s → s.sinkReady = true → Succeeds .frameraw s t0 0 0

/-- R129: NEXTV, DESTTXT, NEXTSTOP, ADDRDEST, LINEPROG, SCREEN and FRAMERAW fault at their completion when every error check passes,
the sink accepts and a text byte they read is unwritten. -/
def Obligations.UnwrittenTextFaults : Prop :=
  ∀ i s, (∃ k, readsText i k = true ∧ TextUnwritten s k) → s.sinkReady = true →
    (∀ k, readsText i k = true → tlen s k ≤ textCap s) →
    (i = .nextv → ∃ W, widthOf (wsel s) = some W ∧ tlen s .t0 ≤ W) → exec i s = .fault .unwrittenText

/-- R253, R257: a command fails with E_TLEN exactly when a text it reads is longer than TEXT_CAP, whatever else is wrong with it:
WSEL, the width of its field, unwritten bytes, the sink. -/
def Obligations.TlenIsCheckedFirst : Prop :=
  ∀ i s, ((∃ k, readsText i k = true ∧ tlen s k > textCap s) → FailsWith 0x02 i s) ∧
    (s.status.busy = true → FailsWith 0x02 i s → ∃ k, readsText i k = true ∧ tlen s k > textCap s)

/-- R91: a command's result depends on nothing but the operands it reads (and TEXT_CAP). -/
def Obligations.CommandsReadOnlyTheirOperands : Prop :=
  ∀ i s t, SameOperands i s t → ∃ b, exec i s = complete b s ∧ exec i t = complete b t

/-- R123, R295: while the sink accepts no frame, a command that would not fail changes nothing and stays pending, through every step
but a reset or a sink that begins to accept; a command that fails needs no sink. Two points are the model's: a command with
an unwritten text byte, which R129 makes a fault at its completion, waits for the sink as a success does (log entry 8), and
only a sink turn changes whether the sink accepts (log entry 12). -/
def Obligations.SinkStallHoldsTheCompletion : Prop :=
  (∀ i s, s.sinkReady = false → (payload i s).isError = false → exec i s = .next s) ∧
  (∀ i s e, payload i s = .error e → FailsWith (errByte e) i s) ∧
  ∀ s t, s.status.busy = true → s.sinkReady = false → (payloadOfCmd s).isError = false →
    (∀ n, (nextTurn s).1 ≠ .reset n) → (nextTurn s).1 ≠ .sink true → step s = .next t →
    t.status.busy = true ∧ t.sinkReady = false ∧ (payloadOfCmd t).isError = false ∧ t.cmd = s.cmd ∧ t.out = s.out

/-! ## The machine -/

/-- R124, R132: while BUSY = 1 no step but a reset changes CMD, an operand register or a TBUF byte, and until the completion the
payload of the pending command stays what it was at issue. -/
def Obligations.OperandsStableWhileBusy : Prop :=
  ∀ s t, s.status.busy = true → (∀ n, (nextTurn s).1 ≠ .reset n) → step s = .next t →
    t.cmd = s.cmd ∧ t.addr = s.addr ∧ t.argf = s.argf ∧ num t = num s ∧ (∀ k, tlen t k = tlen s k) ∧
    (∀ a, a < 0x2000 → memLookup t.mem a = memLookup s.mem a) ∧
    (t.status.busy = true → payloadOfCmd t = payloadOfCmd s) ∧
    (t.status.busy = false → t.status.done = true)

/-- R127, R283: a step never takes back what was handed to the sink, and hands over at most one entry: a whole frame at a successful
completion, a truncated one at a reset while BUSY = 1; every other step, an error completion among them, hands over none. -/
def Obligations.OutputOnlyGrows : Prop :=
  ∀ s t, step s = .next t →
    t.out = s.out ∨
    (∃ f, t.out = s.out ++ [{ bytes := f, truncated := false }] ∧ s.status.busy = true ∧ t.status.busy = false ∧
      t.status.done = true ∧ t.status.err = false) ∨
    ∃ f, t.out = s.out ++ [{ bytes := f, truncated := true }] ∧ s.status.busy = true ∧
      ∃ n, (nextTurn s).1 = .reset n

/-- Every step keeps the memory in its canonical form, and every byte that holds a value in a TBUF or FBUF window (R62). -/
def Obligations.StepKeepsMemoryCanonical : Prop :=
  ∀ s t, step s = .next t → (s.mem.wf → t.mem.wf) ∧ (CapOk s → MemMapped s → MemMapped t)

/-- R28: every step keeps the STATUS flags in a legal combination. -/
def Obligations.StepKeepsStatusLegal : Prop :=
  ∀ s t, StatusLegal s.status → step s = .next t → StatusLegal t.status

/-- R29, R32, R33, R36, R251, R41: every step keeps ERRCODE, FLEN, CSUM and FBUF, and before the first command NBLK and REM too, what
the flags of STATUS and the last frame of OUT say they are. -/
def Obligations.StepKeepsResultsMatched : Prop :=
  ∀ s t, CapOk s → StatusLegal s.status → ResultsMatch s → step s = .next t → ResultsMatch t

/-- R127, R235, R282: every step keeps the output history legal: each whole frame ends in the terminator and a checksum and passes the
self-check. -/
def Obligations.StepKeepsHistoryLegal : Prop :=
  ∀ s t, HistoryLegal s.out → step s = .next t → HistoryLegal t.out

/-- The invariant of the machine holds after reset. -/
def Obligations.ResetMeetsTheInvariant : Prop := MachineInv State.reset

/-- Every step of the machine keeps its invariant. -/
def Obligations.StepKeepsTheInvariant : Prop := ∀ s t, MachineInv s → step s = .next t → MachineInv t
end

