-- ==== Sys2Proof/Laws/Codec.lean ====
section
/-! SUPPORT. Sizes of the strings the codec builds, and how the checksum fold splits. -/

namespace Sys2Proof.Machine

@[simp] theorem remap_append (s t : Bytes) : remap (s ++ t) = remap s ++ remap t := List.map_append

@[simp] theorem remap_length' (s : Bytes) : (remap s).length = s.length := List.length_map ..

@[simp] theorem dec_length' (W n : Nat) : (dec W n).length = W := by simp [dec]

@[simp] theorem ljust_length (W : Nat) (s : Bytes) : (ljust W s).length = max s.length W := by
  simp only [ljust, List.length_append, List.length_replicate]
  omega

@[simp] theorem frame_length (p : Bytes) : (frame p).length = p.length + 2 := by
  simp [frame, terminated]

theorem hex_length_le (v : Byte) : 1 ≤ (hex v).length ∧ (hex v).length ≤ 2 := by
  unfold hex
  split <;> simp

theorem hex_length_of_lt {v : Byte} (h : v.toNat < 16) : (hex v).length = 1 := by
  have hv : v.extractLsb' 4 4 = 0 := by
    apply BitVec.eq_of_toNat_eq
    rw [BitVec.extractLsb'_toNat, Nat.shiftRight_eq_div_pow]
    simp
    omega
  unfold hex
  rw [if_neg (by simpa using hv)]
  rfl

/-- A count of `b`-byte blocks covers the string and leaves less than one block over. -/
theorem nblocks_bounds (s : Bytes) {b : Nat} (hb : 0 < b) :
    s.length ≤ nblocks s b * b ∧ nblocks s b * b < s.length + b := by
  unfold nblocks ceilDiv
  have h1 := Nat.div_add_mod (s.length + b - 1) b
  have h2 := Nat.mod_lt (s.length + b - 1) hb
  rw [Nat.mul_comm] at h1
  omega

theorem padtext_length (s : Bytes) {b : Nat} (hb : 0 < b) : (padtext s b).length = nblocks s b * b := by
  have := nblocks_bounds s hb
  simp only [padtext, List.length_append, List.length_replicate]
  omega

@[simp] theorem accFold_nil (a : Byte) : accFold a [] = a := rfl

@[simp] theorem accFold_cons (a b : Byte) (q : Bytes) : accFold a (b :: q) = accFold (a ^^^ b) q := rfl

@[simp] theorem accFold_append (a : Byte) (q r : Bytes) : accFold a (q ++ r) = accFold (accFold a q) r :=
  List.foldl_append

/-- The start value can be XORed in at the end. -/
theorem accFold_start (a : Byte) (q : Bytes) : accFold a q = a ^^^ accFold 0 q := by
  induction q generalizing a with
  | nil => simp
  | cons b q ih =>
    rw [accFold_cons, accFold_cons, ih (a ^^^ b), ih (0 ^^^ b)]
    simp [BitVec.xor_assoc]

@[simp] theorem lineprogRecord_length (t0 t1 t2 : Bytes) :
    (lineprogRecord t0 t1 t2).length = 3 + t0.length + t1.length + t2.length := by
  simp only [lineprogRecord, List.length_append, List.length_cons, List.length_nil]
  omega

theorem screenText_length (t0 t1 : Bytes) :
    (screenText t0 t1).length = t0.length + (if t1.length > 0 then 1 + t1.length else 0) + 2 := by
  unfold screenText
  split <;> simp <;> omega

end Sys2Proof.Machine
end

