-- ==== Sys2Proof/Laws/Memory.lean ====
section
/-! SUPPORT. What the memory operations do to a lookup, and that each keeps the canonical form. -/

namespace Sys2Proof.Machine

@[simp] theorem memLookup_nil (a : Nat) : memLookup [] a = none := rfl

@[simp] theorem memCells_nil (a : Nat) : memCells a [] = [] := rfl

theorem memLookup_append (m n : Memory) (a : Nat) :
    memLookup (m ++ n) a = (memLookup m a).or (memLookup n a) := by
  induction m with
  | nil => simp [memLookup]
  | cons c m ih =>
    simp only [List.cons_append, memLookup]
    split <;> simp [ih]

theorem memLookup_filter_of_keep (m : Memory) (f : Nat → Bool) (a : Nat) (h : f a = true) :
    memLookup (m.filter (fun c => f c.1)) a = memLookup m a := by
  induction m with
  | nil => rfl
  | cons c m ih =>
    by_cases hc : c.1 = a
    · simp [memLookup, hc, h]
    · by_cases hf : f c.1 = true <;> simp [memLookup, hc, hf, ih]

theorem memLookup_filter_of_drop (m : Memory) (f : Nat → Bool) (a : Nat) (h : f a = false) :
    memLookup (m.filter (fun c => f c.1)) a = none := by
  induction m with
  | nil => rfl
  | cons c m ih =>
    by_cases hc : c.1 = a
    · simp [hc, h, ih]
    · by_cases hf : f c.1 = true <;> simp [memLookup, hc, hf, ih]

theorem memLookup_memCells (a : Nat) (bs : Bytes) (x : Nat) :
    memLookup (memCells a bs) x = if a ≤ x then bs[x - a]? else none := by
  induction bs generalizing a with
  | nil => simp
  | cons b bs ih =>
    simp only [memCells, memLookup, ih]
    by_cases h : a = x
    · simp [h]
    · by_cases h' : a ≤ x
      · have : x - a = (x - (a + 1)) + 1 := by omega
        rw [if_neg h, if_pos (by omega), if_pos h', this, List.getElem?_cons_succ]
      · rw [if_neg h, if_neg (by omega), if_neg h']

/-- A store sets the bytes of its string and no other. -/
theorem memLookup_memStore (m : Memory) (a : Nat) (bs : Bytes) (x : Nat) :
    memLookup (memStore m a bs) x = if a ≤ x ∧ x < a + bs.length then bs[x - a]? else memLookup m x := by
  unfold memStore
  rw [memLookup_append, memLookup_append, memLookup_memCells]
  by_cases h1 : x < a
  · rw [memLookup_filter_of_keep m (fun y => decide (y < a)) x (by simpa using h1),
      memLookup_filter_of_drop m (fun y => decide (a + bs.length ≤ y)) x (by simpa using by omega),
      if_neg (by omega), if_neg (by omega)]
    simp
  · rw [memLookup_filter_of_drop m (fun y => decide (y < a)) x (by simpa using by omega), if_pos (by omega)]
    by_cases h2 : x < a + bs.length
    · rw [memLookup_filter_of_drop m (fun y => decide (a + bs.length ≤ y)) x (by simpa using h2),
        if_pos ⟨by omega, h2⟩]
      simp
    · rw [memLookup_filter_of_keep m (fun y => decide (a + bs.length ≤ y)) x (by simpa using by omega),
        if_neg (by omega), List.getElem?_eq_none (by omega)]
      simp

/-- A clear takes the value from the addresses of its range and from no other. -/
theorem memLookup_memClear (m : Memory) (a n x : Nat) :
    memLookup (memClear m a n) x = if a ≤ x ∧ x < a + n then none else memLookup m x := by
  unfold memClear
  by_cases h : a ≤ x ∧ x < a + n
  · rw [if_pos h]
    exact memLookup_filter_of_drop m (fun y => decide (y < a) || decide (a + n ≤ y)) x
      (by simp only [Bool.or_eq_false_iff, decide_eq_false_iff_not]; omega)
  · rw [if_neg h]
    exact memLookup_filter_of_keep m (fun y => decide (y < a) || decide (a + n ≤ y)) x
      (by simp only [Bool.or_eq_true, decide_eq_true_eq]; omega)

theorem mem_memCells {a : Nat} {bs : Bytes} {c : Host.Cell} (h : c ∈ memCells a bs) :
    a ≤ c.1 ∧ c.1 < a + bs.length := by
  induction bs generalizing a with
  | nil => simp at h
  | cons b bs ih =>
    simp only [memCells, List.mem_cons] at h
    rcases h with rfl | h
    · simp
    · have := ih h
      simp only [List.length_cons]
      omega

theorem memCells_wf (a : Nat) (bs : Bytes) : Memory.wf (memCells a bs) := by
  induction bs generalizing a with
  | nil => exact List.Pairwise.nil
  | cons b bs ih =>
    refine List.pairwise_cons.mpr ⟨fun c hc => ?_, ih (a + 1)⟩
    have := mem_memCells hc
    show a < c.1
    omega

theorem memStore_wf {m : Memory} (a : Nat) (bs : Bytes) (h : Memory.wf m) : Memory.wf (memStore m a bs) := by
  unfold memStore
  refine List.pairwise_append.mpr ⟨List.pairwise_append.mpr ⟨h.filter _, memCells_wf a bs, ?_⟩, h.filter _, ?_⟩
  · intro x hx y hy
    have hx := (List.mem_filter.mp hx).2
    have := mem_memCells hy
    simp only [decide_eq_true_eq] at hx
    omega
  · intro x hx y hy
    have hy := (List.mem_filter.mp hy).2
    simp only [decide_eq_true_eq] at hy
    rcases List.mem_append.mp hx with hx | hx
    · have hx := (List.mem_filter.mp hx).2
      simp only [decide_eq_true_eq] at hx
      omega
    · have := mem_memCells hx
      omega

theorem memClear_wf {m : Memory} (a n : Nat) (h : Memory.wf m) : Memory.wf (memClear m a n) := h.filter _

theorem memFill_wf {m : Memory} (a n d : Nat) (h : Memory.wf m) : Memory.wf (memFill m a n d) := by
  induction n generalizing m a d with
  | zero => exact h
  | succ n ih =>
    unfold memFill
    split
    · exact ih _ _ h
    · exact ih _ _ (memStore_wf _ _ h)

/-- Every cell of a store is a cell of its string or was there before. -/
theorem mem_memStore {m : Memory} {a : Nat} {bs : Bytes} {c : Host.Cell} (h : c ∈ memStore m a bs) :
    c ∈ m ∨ (a ≤ c.1 ∧ c.1 < a + bs.length) := by
  unfold memStore at h
  rcases List.mem_append.mp h with h | h
  · rcases List.mem_append.mp h with h | h
    · exact .inl (List.mem_filter.mp h).1
    · exact .inr (mem_memCells h)
  · exact .inl (List.mem_filter.mp h).1

theorem mem_memClear {m : Memory} {a n : Nat} {c : Host.Cell} (h : c ∈ memClear m a n) :
    c ∈ m ∧ ¬(a ≤ c.1 ∧ c.1 < a + n) := by
  have := List.mem_filter.mp h
  simp only [Bool.or_eq_true, decide_eq_true_eq] at this
  exact ⟨this.1, by omega⟩

/-- `memRead` answers a string exactly when every byte of it is held. -/
theorem memRead_eq_some {m : Memory} {a n : Nat} {t : Bytes} :
    memRead m a n = some t ↔ n = t.length ∧ ∀ j, j < t.length → memLookup m (a + j) = t[j]? := by
  induction n generalizing a t with
  | zero =>
    cases t with
    | nil => simp [memRead]
    | cons b t => simp [memRead]
  | succ n ih =>
    unfold memRead
    constructor
    · intro h
      split at h
      · next b bs hb hbs =>
        obtain rfl := Option.some.inj h
        obtain ⟨h1, h2⟩ := ih.mp hbs
        refine ⟨by simp [h1], fun j hj => ?_⟩
        cases j with
        | zero => simpa using hb
        | succ j =>
          have := h2 j (by simpa using hj)
          rw [List.getElem?_cons_succ, ← this, Nat.add_right_comm, Nat.add_assoc]
      · cases h
    · rintro ⟨h1, h2⟩
      cases t with
      | nil => simp at h1
      | cons b t =>
        have hb : memLookup m a = some b := by simpa using h2 0 (by simp)
        have ht : memRead m (a + 1) n = some t := by
          refine ih.mpr ⟨by simpa using h1, fun j hj => ?_⟩
          have := h2 (j + 1) (by simpa using hj)
          rw [List.getElem?_cons_succ] at this
          rw [← this]
          congr 1
          omega
        rw [hb, ht]

/-- `memRead` answers nothing exactly when some byte is not held. -/
theorem memRead_eq_none {m : Memory} {a n : Nat} :
    memRead m a n = none ↔ ∃ j, j < n ∧ memLookup m (a + j) = none := by
  induction n generalizing a with
  | zero => simp [memRead]
  | succ n ih =>
    unfold memRead
    constructor
    · intro h
      split at h
      · cases h
      · next hno =>
        cases hb : memLookup m a with
        | none => exact ⟨0, by omega, hb⟩
        | some b =>
          cases hbs : memRead m (a + 1) n with
          | none =>
            obtain ⟨j, hj, hl⟩ := ih.mp hbs
            exact ⟨j + 1, by omega, by rw [← hl]; congr 1; omega⟩
          | some bs => exact (hno b bs hb hbs).elim
    · rintro ⟨j, hj, hl⟩
      split
      · next b bs hb hbs =>
        exfalso
        cases j with
        | zero => rw [Nat.add_zero, hb] at hl; cases hl
        | succ j =>
          have : memRead m (a + 1) n = none := ih.mpr ⟨j, by omega, by rw [← hl]; congr 1; omega⟩
          rw [this] at hbs
          cases hbs
      · rfl

/-- Reading depends only on the bytes read. -/
theorem memRead_congr {m m' : Memory} {a n : Nat}
    (h : ∀ j, j < n → memLookup m (a + j) = memLookup m' (a + j)) : memRead m a n = memRead m' a n := by
  induction n generalizing a with
  | zero => rfl
  | succ n ih =>
    have h0 : memLookup m a = memLookup m' a := by simpa using h 0 (by omega)
    have h1 : memRead m (a + 1) n = memRead m' (a + 1) n :=
      ih fun j hj => by simpa [Nat.add_assoc, Nat.add_comm 1 j] using h (j + 1) (by omega)
    unfold memRead
    rw [h0, h1]

/-- A fill leaves every address that holds a value, and every address outside its range, as it was. -/
theorem memLookup_memFill (m : Memory) (a n d x : Nat) (h : memLookup m x ≠ none ∨ x < a ∨ a + n ≤ x) :
    memLookup (memFill m a n d) x = memLookup m x := by
  induction n generalizing m a d with
  | zero => rfl
  | succ n ih =>
    unfold memFill
    split
    · exact ih _ _ _ (h.imp_right fun h => by omega)
    · next hn =>
      have hx : x ≠ a := by rintro rfl; rcases h with h | h <;> [exact h hn; omega]
      have hs : memLookup (memStore m a [Config.drawByte d]) x = memLookup m x := by
        rw [memLookup_memStore, if_neg (by simp; omega)]
      rw [ih _ _ _ (by rw [hs]; exact h.imp_right fun h => by omega), hs]

/-- A fill gives every address of its range a value. -/
theorem memLookup_memFill_ne_none (m : Memory) (a n d x : Nat) (h : a ≤ x ∧ x < a + n) :
    memLookup (memFill m a n d) x ≠ none := by
  induction n generalizing m a d with
  | zero => omega
  | succ n ih =>
    by_cases hx : x = a
    · subst hx
      unfold memFill
      split
      · next hs =>
        rw [memLookup_memFill _ _ _ _ _ (.inr (.inl (by omega))), hs]
        simp
      · rw [memLookup_memFill _ _ _ _ _ (.inr (.inl (by omega))), memLookup_memStore]
        simp
    · unfold memFill
      split <;> exact ih _ _ _ (by omega)

/-- Storing one byte twice is storing it once. -/
theorem memStore_memStore_byte (m : Memory) (a : Nat) (b : Byte) :
    memStore (memStore m a [b]) a [b] = memStore m a [b] := by
  have lt (c : Host.Cell) : (decide (c.1 < a) && decide (a < c.1)) = false := by simp; omega
  have gt (c : Host.Cell) : (decide (a < c.1) && decide (c.1 < a)) = false := by simp; omega
  simp [memStore, memCells, List.filter_append, lt, gt]

end Sys2Proof.Machine
end

