-- ==== Sys2Proof/Laws/State.lean ====
section
/-! SUPPORT. What each named update of State does to each field: one lemma per field per update, so that no later proof
unfolds a record update. -/

namespace Sys2Proof.Machine

@[simp] theorem issue_cmd (v : Byte) (s : State) :
    (issue v s).cmd = v := rfl
@[simp] theorem issue_status (v : Byte) (s : State) :
    (issue v s).status = statusIssued s.status := rfl
@[simp] theorem issue_errcode (v : Byte) (s : State) :
    (issue v s).errcode = 0x00 := rfl
@[simp] theorem issue_addr (v : Byte) (s : State) :
    (issue v s).addr = s.addr := rfl
@[simp] theorem issue_argf (v : Byte) (s : State) :
    (issue v s).argf = s.argf := rfl
@[simp] theorem issue_num0 (v : Byte) (s : State) :
    (issue v s).num0 = s.num0 := rfl
@[simp] theorem issue_num1 (v : Byte) (s : State) :
    (issue v s).num1 = s.num1 := rfl
@[simp] theorem issue_num2 (v : Byte) (s : State) :
    (issue v s).num2 = s.num2 := rfl
@[simp] theorem issue_tlen0Lo (v : Byte) (s : State) :
    (issue v s).tlen0Lo = s.tlen0Lo := rfl
@[simp] theorem issue_tlen0Hi (v : Byte) (s : State) :
    (issue v s).tlen0Hi = s.tlen0Hi := rfl
@[simp] theorem issue_tlen1Lo (v : Byte) (s : State) :
    (issue v s).tlen1Lo = s.tlen1Lo := rfl
@[simp] theorem issue_tlen1Hi (v : Byte) (s : State) :
    (issue v s).tlen1Hi = s.tlen1Hi := rfl
@[simp] theorem issue_tlen2Lo (v : Byte) (s : State) :
    (issue v s).tlen2Lo = s.tlen2Lo := rfl
@[simp] theorem issue_tlen2Hi (v : Byte) (s : State) :
    (issue v s).tlen2Hi = s.tlen2Hi := rfl
@[simp] theorem issue_nblk (v : Byte) (s : State) :
    (issue v s).nblk = s.nblk := rfl
@[simp] theorem issue_rem (v : Byte) (s : State) :
    (issue v s).rem = s.rem := rfl
@[simp] theorem issue_flen (v : Byte) (s : State) :
    (issue v s).flen = s.flen := rfl
@[simp] theorem issue_csum (v : Byte) (s : State) :
    (issue v s).csum = s.csum := rfl
@[simp] theorem issue_tcap (v : Byte) (s : State) :
    (issue v s).tcap = s.tcap := rfl
@[simp] theorem issue_mem (v : Byte) (s : State) :
    (issue v s).mem = s.mem := rfl
@[simp] theorem issue_acc (v : Byte) (s : State) :
    (issue v s).acc = s.acc := rfl
@[simp] theorem issue_out (v : Byte) (s : State) :
    (issue v s).out = s.out := rfl
@[simp] theorem issue_sinkReady (v : Byte) (s : State) :
    (issue v s).sinkReady = s.sinkReady := rfl
@[simp] theorem issue_h (v : Byte) (s : State) :
    (issue v s).h = s.h := rfl
@[simp] theorem issue_hostProg (v : Byte) (s : State) :
    (issue v s).hostProg = s.hostProg := rfl
@[simp] theorem issue_hostPc (v : Byte) (s : State) :
    (issue v s).hostPc = s.hostPc := rfl
@[simp] theorem issue_listing (v : Byte) (s : State) :
    (issue v s).listing = s.listing := rfl
@[simp] theorem issue_turns (v : Byte) (s : State) :
    (issue v s).turns = s.turns := rfl
@[simp] theorem issue_draws (v : Byte) (s : State) :
    (issue v s).draws = s.draws := rfl

@[simp] theorem successCompletion_cmd (p : Bytes) (nb rem : Nat) (s : State) :
    (successCompletion p nb rem s).cmd = s.cmd := rfl
@[simp] theorem successCompletion_status (p : Bytes) (nb rem : Nat) (s : State) :
    (successCompletion p nb rem s).status = statusSucceeded s.status (hibit (remap p)) := rfl
@[simp] theorem successCompletion_errcode (p : Bytes) (nb rem : Nat) (s : State) :
    (successCompletion p nb rem s).errcode = 0x00 := rfl
@[simp] theorem successCompletion_addr (p : Bytes) (nb rem : Nat) (s : State) :
    (successCompletion p nb rem s).addr = s.addr := rfl
@[simp] theorem successCompletion_argf (p : Bytes) (nb rem : Nat) (s : State) :
    (successCompletion p nb rem s).argf = s.argf := rfl
@[simp] theorem successCompletion_num0 (p : Bytes) (nb rem : Nat) (s : State) :
    (successCompletion p nb rem s).num0 = s.num0 := rfl
@[simp] theorem successCompletion_num1 (p : Bytes) (nb rem : Nat) (s : State) :
    (successCompletion p nb rem s).num1 = s.num1 := rfl
@[simp] theorem successCompletion_num2 (p : Bytes) (nb rem : Nat) (s : State) :
    (successCompletion p nb rem s).num2 = s.num2 := rfl
@[simp] theorem successCompletion_tlen0Lo (p : Bytes) (nb rem : Nat) (s : State) :
    (successCompletion p nb rem s).tlen0Lo = s.tlen0Lo := rfl
@[simp] theorem successCompletion_tlen0Hi (p : Bytes) (nb rem : Nat) (s : State) :
    (successCompletion p nb rem s).tlen0Hi = s.tlen0Hi := rfl
@[simp] theorem successCompletion_tlen1Lo (p : Bytes) (nb rem : Nat) (s : State) :
    (successCompletion p nb rem s).tlen1Lo = s.tlen1Lo := rfl
@[simp] theorem successCompletion_tlen1Hi (p : Bytes) (nb rem : Nat) (s : State) :
    (successCompletion p nb rem s).tlen1Hi = s.tlen1Hi := rfl
@[simp] theorem successCompletion_tlen2Lo (p : Bytes) (nb rem : Nat) (s : State) :
    (successCompletion p nb rem s).tlen2Lo = s.tlen2Lo := rfl
@[simp] theorem successCompletion_tlen2Hi (p : Bytes) (nb rem : Nat) (s : State) :
    (successCompletion p nb rem s).tlen2Hi = s.tlen2Hi := rfl
@[simp] theorem successCompletion_nblk (p : Bytes) (nb rem : Nat) (s : State) :
    (successCompletion p nb rem s).nblk = BitVec.ofNat 8 nb := rfl
@[simp] theorem successCompletion_rem (p : Bytes) (nb rem : Nat) (s : State) :
    (successCompletion p nb rem s).rem = BitVec.ofNat 8 rem := rfl
@[simp] theorem successCompletion_flen (p : Bytes) (nb rem : Nat) (s : State) :
    (successCompletion p nb rem s).flen = BitVec.ofNat 16 (frame p).length := rfl
@[simp] theorem successCompletion_csum (p : Bytes) (nb rem : Nat) (s : State) :
    (successCompletion p nb rem s).csum = checksum p := rfl
@[simp] theorem successCompletion_tcap (p : Bytes) (nb rem : Nat) (s : State) :
    (successCompletion p nb rem s).tcap = s.tcap := rfl
@[simp] theorem successCompletion_mem (p : Bytes) (nb rem : Nat) (s : State) :
    (successCompletion p nb rem s).mem = storeFrame s (frame p) := rfl
@[simp] theorem successCompletion_acc (p : Bytes) (nb rem : Nat) (s : State) :
    (successCompletion p nb rem s).acc = checksum p := rfl
@[simp] theorem successCompletion_out (p : Bytes) (nb rem : Nat) (s : State) :
    (successCompletion p nb rem s).out = emit (frame p) s.out := rfl
@[simp] theorem successCompletion_sinkReady (p : Bytes) (nb rem : Nat) (s : State) :
    (successCompletion p nb rem s).sinkReady = s.sinkReady := rfl
@[simp] theorem successCompletion_h (p : Bytes) (nb rem : Nat) (s : State) :
    (successCompletion p nb rem s).h = s.h := rfl
@[simp] theorem successCompletion_hostProg (p : Bytes) (nb rem : Nat) (s : State) :
    (successCompletion p nb rem s).hostProg = s.hostProg := rfl
@[simp] theorem successCompletion_hostPc (p : Bytes) (nb rem : Nat) (s : State) :
    (successCompletion p nb rem s).hostPc = s.hostPc := rfl
@[simp] theorem successCompletion_listing (p : Bytes) (nb rem : Nat) (s : State) :
    (successCompletion p nb rem s).listing = s.listing := rfl
@[simp] theorem successCompletion_turns (p : Bytes) (nb rem : Nat) (s : State) :
    (successCompletion p nb rem s).turns = s.turns := rfl
@[simp] theorem successCompletion_draws (p : Bytes) (nb rem : Nat) (s : State) :
    (successCompletion p nb rem s).draws = s.draws := rfl

@[simp] theorem errorCompletion_cmd (e : ErrCode) (s : State) :
    (errorCompletion e s).cmd = s.cmd := rfl
@[simp] theorem errorCompletion_status (e : ErrCode) (s : State) :
    (errorCompletion e s).status = statusFailed s.status := rfl
@[simp] theorem errorCompletion_errcode (e : ErrCode) (s : State) :
    (errorCompletion e s).errcode = errByte e := rfl
@[simp] theorem errorCompletion_addr (e : ErrCode) (s : State) :
    (errorCompletion e s).addr = s.addr := rfl
@[simp] theorem errorCompletion_argf (e : ErrCode) (s : State) :
    (errorCompletion e s).argf = s.argf := rfl
@[simp] theorem errorCompletion_num0 (e : ErrCode) (s : State) :
    (errorCompletion e s).num0 = s.num0 := rfl
@[simp] theorem errorCompletion_num1 (e : ErrCode) (s : State) :
    (errorCompletion e s).num1 = s.num1 := rfl
@[simp] theorem errorCompletion_num2 (e : ErrCode) (s : State) :
    (errorCompletion e s).num2 = s.num2 := rfl
@[simp] theorem errorCompletion_tlen0Lo (e : ErrCode) (s : State) :
    (errorCompletion e s).tlen0Lo = s.tlen0Lo := rfl
@[simp] theorem errorCompletion_tlen0Hi (e : ErrCode) (s : State) :
    (errorCompletion e s).tlen0Hi = s.tlen0Hi := rfl
@[simp] theorem errorCompletion_tlen1Lo (e : ErrCode) (s : State) :
    (errorCompletion e s).tlen1Lo = s.tlen1Lo := rfl
@[simp] theorem errorCompletion_tlen1Hi (e : ErrCode) (s : State) :
    (errorCompletion e s).tlen1Hi = s.tlen1Hi := rfl
@[simp] theorem errorCompletion_tlen2Lo (e : ErrCode) (s : State) :
    (errorCompletion e s).tlen2Lo = s.tlen2Lo := rfl
@[simp] theorem errorCompletion_tlen2Hi (e : ErrCode) (s : State) :
    (errorCompletion e s).tlen2Hi = s.tlen2Hi := rfl
@[simp] theorem errorCompletion_nblk (e : ErrCode) (s : State) :
    (errorCompletion e s).nblk = s.nblk := rfl
@[simp] theorem errorCompletion_rem (e : ErrCode) (s : State) :
    (errorCompletion e s).rem = s.rem := rfl
@[simp] theorem errorCompletion_flen (e : ErrCode) (s : State) :
    (errorCompletion e s).flen = 0 := rfl
@[simp] theorem errorCompletion_csum (e : ErrCode) (s : State) :
    (errorCompletion e s).csum = s.csum := rfl
@[simp] theorem errorCompletion_tcap (e : ErrCode) (s : State) :
    (errorCompletion e s).tcap = s.tcap := rfl
@[simp] theorem errorCompletion_mem (e : ErrCode) (s : State) :
    (errorCompletion e s).mem = memClear s.mem fbufBase (frameCap (textCap s)) := rfl
@[simp] theorem errorCompletion_acc (e : ErrCode) (s : State) :
    (errorCompletion e s).acc = s.acc := rfl
@[simp] theorem errorCompletion_out (e : ErrCode) (s : State) :
    (errorCompletion e s).out = s.out := rfl
@[simp] theorem errorCompletion_sinkReady (e : ErrCode) (s : State) :
    (errorCompletion e s).sinkReady = s.sinkReady := rfl
@[simp] theorem errorCompletion_h (e : ErrCode) (s : State) :
    (errorCompletion e s).h = s.h := rfl
@[simp] theorem errorCompletion_hostProg (e : ErrCode) (s : State) :
    (errorCompletion e s).hostProg = s.hostProg := rfl
@[simp] theorem errorCompletion_hostPc (e : ErrCode) (s : State) :
    (errorCompletion e s).hostPc = s.hostPc := rfl
@[simp] theorem errorCompletion_listing (e : ErrCode) (s : State) :
    (errorCompletion e s).listing = s.listing := rfl
@[simp] theorem errorCompletion_turns (e : ErrCode) (s : State) :
    (errorCompletion e s).turns = s.turns := rfl
@[simp] theorem errorCompletion_draws (e : ErrCode) (s : State) :
    (errorCompletion e s).draws = s.draws := rfl

@[simp] theorem resetBlock_cmd (n : Nat) (s : State) :
    (resetBlock n s).cmd = 0x00 := rfl
@[simp] theorem resetBlock_status (n : Nat) (s : State) :
    (resetBlock n s).status = { busy := false, done := false, err := false, wign := false, hibit := false } := rfl
@[simp] theorem resetBlock_errcode (n : Nat) (s : State) :
    (resetBlock n s).errcode = 0x00 := rfl
@[simp] theorem resetBlock_addr (n : Nat) (s : State) :
    (resetBlock n s).addr = 0x00 := rfl
@[simp] theorem resetBlock_argf (n : Nat) (s : State) :
    (resetBlock n s).argf = 0 := rfl
@[simp] theorem resetBlock_num0 (n : Nat) (s : State) :
    (resetBlock n s).num0 = 0x00 := rfl
@[simp] theorem resetBlock_num1 (n : Nat) (s : State) :
    (resetBlock n s).num1 = 0x00 := rfl
@[simp] theorem resetBlock_num2 (n : Nat) (s : State) :
    (resetBlock n s).num2 = 0 := rfl
@[simp] theorem resetBlock_tlen0Lo (n : Nat) (s : State) :
    (resetBlock n s).tlen0Lo = 0x00 := rfl
@[simp] theorem resetBlock_tlen0Hi (n : Nat) (s : State) :
    (resetBlock n s).tlen0Hi = 0x00 := rfl
@[simp] theorem resetBlock_tlen1Lo (n : Nat) (s : State) :
    (resetBlock n s).tlen1Lo = 0x00 := rfl
@[simp] theorem resetBlock_tlen1Hi (n : Nat) (s : State) :
    (resetBlock n s).tlen1Hi = 0x00 := rfl
@[simp] theorem resetBlock_tlen2Lo (n : Nat) (s : State) :
    (resetBlock n s).tlen2Lo = 0x00 := rfl
@[simp] theorem resetBlock_tlen2Hi (n : Nat) (s : State) :
    (resetBlock n s).tlen2Hi = 0x00 := rfl
@[simp] theorem resetBlock_nblk (n : Nat) (s : State) :
    (resetBlock n s).nblk = 0x00 := rfl
@[simp] theorem resetBlock_rem (n : Nat) (s : State) :
    (resetBlock n s).rem = 0x00 := rfl
@[simp] theorem resetBlock_flen (n : Nat) (s : State) :
    (resetBlock n s).flen = 0 := rfl
@[simp] theorem resetBlock_csum (n : Nat) (s : State) :
    (resetBlock n s).csum = 0x00 := rfl
@[simp] theorem resetBlock_tcap (n : Nat) (s : State) :
    (resetBlock n s).tcap = s.tcap := rfl
@[simp] theorem resetBlock_mem (n : Nat) (s : State) :
    (resetBlock n s).mem = [] := rfl
@[simp] theorem resetBlock_acc (n : Nat) (s : State) :
    (resetBlock n s).acc = Config.drawByte (s.draws + 3 * textCap s) := rfl
@[simp] theorem resetBlock_out (n : Nat) (s : State) :
    (resetBlock n s).out = s.out ++ cutFrame n s := rfl
@[simp] theorem resetBlock_sinkReady (n : Nat) (s : State) :
    (resetBlock n s).sinkReady = s.sinkReady := rfl
@[simp] theorem resetBlock_h (n : Nat) (s : State) :
    (resetBlock n s).h = s.h := rfl
@[simp] theorem resetBlock_hostProg (n : Nat) (s : State) :
    (resetBlock n s).hostProg = s.hostProg := rfl
@[simp] theorem resetBlock_hostPc (n : Nat) (s : State) :
    (resetBlock n s).hostPc = s.hostPc := rfl
@[simp] theorem resetBlock_listing (n : Nat) (s : State) :
    (resetBlock n s).listing = s.listing := rfl
@[simp] theorem resetBlock_turns (n : Nat) (s : State) :
    (resetBlock n s).turns = s.turns := rfl
@[simp] theorem resetBlock_draws (n : Nat) (s : State) :
    (resetBlock n s).draws = s.draws + 3 * textCap s + 1 := rfl

@[simp] theorem statusIssued_busy (st : Status) : (statusIssued st).busy = true := rfl
@[simp] theorem statusIssued_done (st : Status) : (statusIssued st).done = false := rfl
@[simp] theorem statusIssued_err (st : Status) : (statusIssued st).err = false := rfl
@[simp] theorem statusIssued_wign (st : Status) : (statusIssued st).wign = st.wign := rfl
@[simp] theorem statusIssued_hibit (st : Status) : (statusIssued st).hibit = false := rfl

@[simp] theorem statusSucceeded_busy (st : Status) (hb : Bool) : (statusSucceeded st hb).busy = false := rfl
@[simp] theorem statusSucceeded_done (st : Status) (hb : Bool) : (statusSucceeded st hb).done = true := rfl
@[simp] theorem statusSucceeded_err (st : Status) (hb : Bool) : (statusSucceeded st hb).err = false := rfl
@[simp] theorem statusSucceeded_wign (st : Status) (hb : Bool) : (statusSucceeded st hb).wign = st.wign := rfl
@[simp] theorem statusSucceeded_hibit (st : Status) (hb : Bool) : (statusSucceeded st hb).hibit = hb := rfl

@[simp] theorem statusFailed_busy (st : Status) : (statusFailed st).busy = false := rfl
@[simp] theorem statusFailed_done (st : Status) : (statusFailed st).done = true := rfl
@[simp] theorem statusFailed_err (st : Status) : (statusFailed st).err = true := rfl
@[simp] theorem statusFailed_wign (st : Status) : (statusFailed st).wign = st.wign := rfl
@[simp] theorem statusFailed_hibit (st : Status) : (statusFailed st).hibit = st.hibit := rfl

@[simp] theorem statusIgnored_busy (st : Status) : (statusIgnored st).busy = st.busy := rfl
@[simp] theorem statusIgnored_done (st : Status) : (statusIgnored st).done = st.done := rfl
@[simp] theorem statusIgnored_err (st : Status) : (statusIgnored st).err = st.err := rfl
@[simp] theorem statusIgnored_wign (st : Status) : (statusIgnored st).wign = true := rfl
@[simp] theorem statusIgnored_hibit (st : Status) : (statusIgnored st).hibit = st.hibit := rfl

@[simp] theorem statusWritten_busy (st : Status) (v : Byte) : (statusWritten st v).busy = st.busy := rfl
@[simp] theorem statusWritten_done (st : Status) (v : Byte) : (statusWritten st v).done = st.done := rfl
@[simp] theorem statusWritten_err (st : Status) (v : Byte) : (statusWritten st v).err = st.err := rfl
@[simp] theorem statusWritten_wign (st : Status) (v : Byte) : (statusWritten st v).wign = (st.wign && !v.getLsbD 3) := rfl
@[simp] theorem statusWritten_hibit (st : Status) (v : Byte) : (statusWritten st v).hibit = st.hibit := rfl

end Sys2Proof.Machine
end

