-- ==== Sys2Proof/Laws/Ops.lean ====
section
/-! SUPPORT. For each shared operation, what it can do: operand checks, completion, the host bus, and where an address of
the map lies. -/

namespace Sys2Proof.Machine

/-! ## Operands -/

theorem num_lt (s : State) : num s < 2 ^ 20 := (numWord s).isLt

theorem tlen_lt (s : State) (k : TextIdx) : tlen s k < 2 ^ 16 := (tlenWord s k).isLt

/-- R65: appending a low byte, as numbers. -/
theorem toNat_append_byte {n : Nat} (x : BitVec n) (y : Byte) : (x ++ y).toNat = 256 * x.toNat + y.toNat := by
  rw [BitVec.toNat_append, Nat.shiftLeft_eq, Nat.mul_comm, ← Nat.two_pow_add_eq_or_of_lt y.isLt]

/-- The low byte of an appended pair. -/
theorem extractLsb'_append_low (x y : Byte) : (x ++ y).extractLsb' 0 8 = y := by
  apply BitVec.eq_of_toNat_eq
  rw [BitVec.extractLsb'_toNat, toNat_append_byte, Nat.shiftRight_eq_div_pow]
  omega

/-- The high byte of an appended pair. -/
theorem extractLsb'_append_high (x y : Byte) : (x ++ y).extractLsb' 8 8 = x := by
  apply BitVec.eq_of_toNat_eq
  rw [BitVec.extractLsb'_toNat, toNat_append_byte, Nat.shiftRight_eq_div_pow]
  omega

theorem num_eq_bytes (s : State) : num s = s.num0.toNat + 256 * s.num1.toNat + 65536 * s.num2.toNat := by
  rw [num, numWord, toNat_append_byte, toNat_append_byte]
  omega

theorem tlen_eq_bytes (s : State) (k : TextIdx) :
    tlen s k = match k with
      | .t0 => s.tlen0Lo.toNat + 256 * s.tlen0Hi.toNat
      | .t1 => s.tlen1Lo.toNat + 256 * s.tlen1Hi.toNat
      | .t2 => s.tlen2Lo.toNat + 256 * s.tlen2Hi.toNat := by
  cases k <;> simp only [tlen, tlenWord, toNat_append_byte] <;> omega

/-- R93: the text a command reads is the text the state holds. -/
theorem readText_eq_some {s : State} {k : TextIdx} {t : Bytes} : readText s k = some t ↔ TextHolds s k t :=
  memRead_eq_some

theorem readText_eq_none {s : State} {k : TextIdx} : readText s k = none ↔ TextUnwritten s k := memRead_eq_none

theorem readText_length {s : State} {k : TextIdx} {t : Bytes} (h : readText s k = some t) : t.length = tlen s k :=
  (readText_eq_some.mp h).1.symm

/-- The length check passes a length that fits on to the rest of the command. -/
theorem checkLen_of_le {s : State} {k : TextIdx} {b : Built} (h : tlen s k ≤ textCap s) : checkLen s k b = b :=
  if_neg (by omega)

theorem checkLen_of_gt {s : State} {k : TextIdx} {b : Built} (h : tlen s k > textCap s) :
    checkLen s k b = .error .tlen := if_pos h

theorem withText_of_holds {s : State} {k : TextIdx} {t : Bytes} {f : Bytes → Built} (h : TextHolds s k t) :
    withText s k f = f t := by
  rw [withText, readText_eq_some.mpr h]

theorem withText_of_unwritten {s : State} {k : TextIdx} {f : Bytes → Built} (h : TextUnwritten s k) :
    withText s k f = .unwritten := by
  rw [withText, readText_eq_none.mpr h]

/-- What a length check can answer: E_TLEN, or what the rest of the command answers. -/
theorem checkLen_cases (s : State) (k : TextIdx) (b : Built) :
    (tlen s k > textCap s ∧ checkLen s k b = .error .tlen) ∨ (tlen s k ≤ textCap s ∧ checkLen s k b = b) := by
  by_cases h : tlen s k > textCap s
  · exact .inl ⟨h, checkLen_of_gt h⟩
  · exact .inr ⟨by omega, checkLen_of_le (by omega)⟩

/-- What reading a text can answer: the rest of the command on the text the state holds, or "unwritten". -/
theorem withText_cases (s : State) (k : TextIdx) (f : Bytes → Built) :
    (∃ t, TextHolds s k t ∧ withText s k f = f t) ∨ (TextUnwritten s k ∧ withText s k f = .unwritten) := by
  cases h : readText s k with
  | some t => exact .inl ⟨t, readText_eq_some.mp h, withText_of_holds (readText_eq_some.mp h)⟩
  | none => exact .inr ⟨readText_eq_none.mp h, withText_of_unwritten (readText_eq_none.mp h)⟩

/-- What a numeric field can answer. -/
theorem numberField_cases (s : State) (head : Bytes) (W : Nat) :
    (num s > 10 ^ W - 1 ∧ numberField s head W = .error .numOvf) ∨
      (num s ≤ 10 ^ W - 1 ∧ numberField s head W = .ok (head ++ dec W (num s)) 0 0) := by
  by_cases h : num s > 10 ^ W - 1
  · exact .inl ⟨h, if_pos h⟩
  · exact .inr ⟨by omega, if_neg h⟩

/-- A length check that lets a success through: the length fits. -/
theorem checkLen_ok {s : State} {k : TextIdx} {b : Built} {p : Bytes} {nb rem : Nat}
    (h : checkLen s k b = .ok p nb rem) : tlen s k ≤ textCap s ∧ b = .ok p nb rem := by
  rcases checkLen_cases s k b with ⟨_, e⟩ | ⟨hl, e⟩ <;> rw [e] at h
  · cases h
  · exact ⟨hl, h⟩

/-- A text that lets a success through: it is written. -/
theorem withText_ok {s : State} {k : TextIdx} {f : Bytes → Built} {p : Bytes} {nb rem : Nat}
    (h : withText s k f = .ok p nb rem) : ∃ t, TextHolds s k t ∧ f t = .ok p nb rem := by
  rcases withText_cases s k f with ⟨t, ht, e⟩ | ⟨_, e⟩ <;> rw [e] at h
  · exact ⟨t, ht, h⟩
  · cases h

/-- A numeric field that succeeds: NUM fits, and the payload is the head and its digits. -/
theorem numberField_ok {s : State} {head p : Bytes} {W nb rem : Nat} (h : numberField s head W = .ok p nb rem) :
    num s ≤ 10 ^ W - 1 ∧ p = head ++ dec W (num s) ∧ nb = 0 ∧ rem = 0 := by
  rcases numberField_cases s head W with ⟨_, e⟩ | ⟨hl, e⟩ <;> rw [e] at h <;> cases h
  exact ⟨hl, rfl, rfl, rfl⟩

/-- A length check reads TEXT_CAP and one length. -/
theorem checkLen_congr {s t : State} {k : TextIdx} {b c : Built} (hcap : s.tcap = t.tcap) (hl : tlen s k = tlen t k)
    (h : b = c) : checkLen s k b = checkLen t k c := by
  rw [checkLen, checkLen, h, hl, textCap, textCap, hcap]

/-- Reading a text depends on its length and its bytes. -/
theorem withText_congr {s t : State} {k : TextIdx} {f g : Bytes → Built} (hl : tlen s k = tlen t k)
    (hm : ∀ j, j < tlen s k → memLookup s.mem (tbufBase k + j) = memLookup t.mem (tbufBase k + j))
    (h : ∀ x, f x = g x) : withText s k f = withText t k g := by
  unfold withText readText
  rw [memRead_congr hm, hl]
  split
  · exact h _
  · rfl

/-! ## Completion -/

/-- Every command completes by the one shared operation, on its payload. -/
theorem exec_eq_complete (i : Instr) (s : State) : exec i s = complete (payload i s) s := by
  cases i <;> rfl

/-- What a completion can do, when it answers a next state: fail, succeed, or wait for the sink. -/
theorem complete_next {b : Built} {s t : State} (h : complete b s = .next t) :
    (∃ e, b = .error e ∧ t = errorCompletion e s) ∨
    (∃ p nb rem, b = .ok p nb rem ∧ s.sinkReady = true ∧ t = successCompletion p nb rem s) ∨
    (b.isError = false ∧ s.sinkReady = false ∧ t = s) := by
  cases b with
  | error e => exact .inl ⟨e, rfl, by simpa [complete] using h.symm⟩
  | ok p nb rem =>
    cases hs : s.sinkReady with
    | true => exact .inr (.inl ⟨p, nb, rem, rfl, rfl, by simpa [complete, hs] using h.symm⟩)
    | false => exact .inr (.inr ⟨rfl, rfl, by simpa [complete, hs] using h.symm⟩)
  | unwritten =>
    cases hs : s.sinkReady with
    | true => simp [complete, hs] at h
    | false => exact .inr (.inr ⟨rfl, rfl, by simpa [complete, hs] using h.symm⟩)

theorem complete_ne_refused (b : Built) (s : State) (r : Refusal) : complete b s ≠ .refused r := by
  cases b <;> simp only [complete] <;> (try split) <;> simp

/-- A completion faults only on an unwritten text byte. -/
theorem complete_fault {b : Built} {s : State} {f : Fault} (h : complete b s = .fault f) :
    b = .unwritten ∧ s.sinkReady = true ∧ f = .unwrittenText := by
  cases b with
  | error e => simp [complete] at h
  | ok p nb rem => cases hs : s.sinkReady <;> simp [complete, hs] at h
  | unwritten =>
    cases hs : s.sinkReady with
    | true => exact ⟨rfl, rfl, by cases f; rfl⟩
    | false => simp [complete, hs] at h

@[simp] theorem textCap_successCompletion (p : Bytes) (nb rem : Nat) (s : State) :
    textCap (successCompletion p nb rem s) = textCap s := rfl

@[simp] theorem textCap_errorCompletion (e : ErrCode) (s : State) : textCap (errorCompletion e s) = textCap s := rfl

/-- After a success FBUF holds the frame, when the frame fits. -/
theorem fbufHolds_successCompletion (p : Bytes) (nb rem : Nat) (s : State) :
    FbufHolds (successCompletion p nb rem s) (frame p) := by
  intro j hj
  simp only [textCap_successCompletion] at hj
  rw [successCompletion_mem, storeFrame, memLookup_memStore, memLookup_memClear]
  by_cases h : j < (frame p).length
  · rw [if_pos (by omega), Nat.add_sub_cancel_left]
  · rw [if_neg (by omega), if_pos (by omega), List.getElem?_eq_none (by omega)]

/-- After an error FBUF is unspecified. -/
theorem fbufHolds_errorCompletion (e : ErrCode) (s : State) : FbufHolds (errorCompletion e s) [] := by
  intro j hj
  simp only [textCap_errorCompletion] at hj
  rw [errorCompletion_mem, memLookup_memClear, if_pos (by omega)]
  rfl

theorem memSame_errorCompletion (e : ErrCode) (s : State) : MemSameOutsideFbuf s (errorCompletion e s) := by
  intro a ha
  simp only [inFbuf, Bool.and_eq_false_iff, decide_eq_false_iff_not] at ha
  rw [errorCompletion_mem, memLookup_memClear, if_neg (by omega)]

theorem memSame_successCompletion (p : Bytes) (nb rem : Nat) (s : State)
    (hf : (frame p).length ≤ frameCap (textCap s)) : MemSameOutsideFbuf s (successCompletion p nb rem s) := by
  intro a ha
  simp only [inFbuf, Bool.and_eq_false_iff, decide_eq_false_iff_not] at ha
  rw [successCompletion_mem, storeFrame, memLookup_memStore, memLookup_memClear, if_neg (by omega), if_neg (by omega)]

/-! ## Texts with draws in place of unwritten bytes -/

theorem fillText_eq (k : TextIdx) (d : Nat) (s : State) : fillText k d s = { s with mem := (fillText k d s).mem } := by
  unfold fillText
  split <;> rfl

/-- A fill changes no byte that holds a value. -/
theorem memLookup_fillText {k : TextIdx} {d : Nat} {s : State} {x : Nat} (h : memLookup s.mem x ≠ none) :
    memLookup (fillText k d s).mem x = memLookup s.mem x := by
  unfold fillText
  split
  · rfl
  · exact memLookup_memFill _ _ _ _ _ (.inl h)

@[simp] theorem tlen_fillText (k k' : TextIdx) (d : Nat) (s : State) : tlen (fillText k d s) k' = tlen s k' := by
  rw [fillText_eq]
  cases k' <;> rfl

@[simp] theorem textCap_fillText (k : TextIdx) (d : Nat) (s : State) : textCap (fillText k d s) = textCap s := by
  rw [fillText_eq]
  rfl

/-- A fill gives every byte of its text a value. -/
theorem fillText_held {k : TextIdx} {d j : Nat} {s : State} (hl : tlen s k ≤ textCap s) (hj : j < tlen s k) :
    memLookup (fillText k d s).mem (tbufBase k + j) ≠ none := by
  unfold fillText
  rw [if_neg (by omega)]
  exact memLookup_memFill_ne_none _ _ _ _ _ (by omega)

theorem filledTexts_eq (s : State) : filledTexts s = { s with mem := (filledTexts s).mem } := by
  unfold filledTexts
  rw [fillText_eq .t2, fillText_eq .t1, fillText_eq .t0]

theorem memLookup_filledTexts {s : State} {x : Nat} (h : memLookup s.mem x ≠ none) :
    memLookup (filledTexts s).mem x = memLookup s.mem x := by
  have h0 : memLookup (fillText .t0 s.draws s).mem x = memLookup s.mem x := memLookup_fillText h
  have h1 := memLookup_fillText (k := .t1) (d := s.draws + textCap s) (h0 ▸ h)
  unfold filledTexts
  rw [memLookup_fillText (by rw [h1, h0]; exact h), h1, h0]

/-- R129: after the fill every byte of every text of legal length holds a value. -/
theorem filledTexts_held {s : State} {k : TextIdx} {j : Nat} (hl : tlen s k ≤ textCap s) (hj : j < tlen s k) :
    memLookup (filledTexts s).mem (tbufBase k + j) ≠ none := by
  unfold filledTexts
  cases k
  · have h0 := fillText_held (d := s.draws) hl hj
    have h1 := memLookup_fillText (k := .t1) (d := s.draws + textCap s) h0
    rw [memLookup_fillText (by rw [h1]; exact h0), h1]
    exact h0
  · have h1 := fillText_held (k := .t1) (d := s.draws + textCap s) (s := fillText .t0 s.draws s) (j := j)
      (by simpa using hl) (by simpa using hj)
    rw [memLookup_fillText h1]
    exact h1
  · exact fillText_held (by simpa using hl) (by simpa using hj)

/-! ## The host bus -/

/-- What a host read can answer: the value a rule gives, with no side effect, or a draw. -/
theorem busRead_cases (a : Addr) (s : State) :
    (∃ v, readable s (locate (textCap s) a) = some v ∧ busRead a s = (v, s)) ∨
    (readable s (locate (textCap s) a) = none ∧
      busRead a s = (Config.drawByte s.draws, { s with draws := s.draws + 1 })) := by
  unfold busRead
  cases h : readable s (locate (textCap s) a) with
  | some v => exact .inl ⟨v, rfl, rfl⟩
  | none => exact .inr ⟨rfl, rfl⟩

theorem busRead_of_readable {a : Addr} {s : State} {l : Loc} {v : Byte} (hl : locate (textCap s) a = l)
    (hv : readable s l = some v) : busRead a s = (v, s) := by
  simp [busRead, hl, hv]

theorem busRead_of_unreadable {a : Addr} {s : State} {l : Loc} (hl : locate (textCap s) a = l)
    (hv : readable s l = none) : busRead a s = (Config.drawByte s.draws, { s with draws := s.draws + 1 }) := by
  simp [busRead, hl, hv]

/-- What a host write can do: hit the busy lock, or store. -/
theorem busWrite_cases (a : Addr) (v : Byte) (s : State) :
    (s.status.busy = true ∧ busyLocked (locate (textCap s) a) = true ∧
      busWrite a v s = { s with status := statusIgnored s.status }) ∨
    ((s.status.busy = false ∨ busyLocked (locate (textCap s) a) = false) ∧
      busWrite a v s = writeLoc v s (locate (textCap s) a)) := by
  unfold busWrite
  cases hb : s.status.busy <;> cases hl : busyLocked (locate (textCap s) a) <;> simp

theorem busWrite_idle {a : Addr} {v : Byte} {s : State} {l : Loc} (hl : locate (textCap s) a = l)
    (hb : s.status.busy = false) : busWrite a v s = writeLoc v s l := by
  simp [busWrite, hl, hb]

theorem busWrite_unlocked {a : Addr} {v : Byte} {s : State} {l : Loc} (hl : locate (textCap s) a = l)
    (hb : busyLocked l = false) : busWrite a v s = writeLoc v s l := by
  simp [busWrite, hl, hb]

theorem busWrite_locked {a : Addr} {v : Byte} {s : State} {l : Loc} (hl : locate (textCap s) a = l)
    (hb : busyLocked l = true) (hs : s.status.busy = true) :
    busWrite a v s = { s with status := { s.status with wign := true } } := by
  simp [busWrite, hl, hb, hs, statusIgnored]

/-! ## The address map -/

theorem locate_register {cap : Nat} {a : Addr} {l : Loc} (h : registerAt a.toNat = some l) : locate cap a = l := by
  simp [locate, h]

theorem registerAt_of_ge {n : Nat} (h : 0x0016 ≤ n) : registerAt n = none := by
  unfold registerAt
  split <;> first | omega | rfl

theorem tbufBase_eq (k : TextIdx) : tbufBase k = 0x1000 + 0x400 * textNumber k := by cases k <;> rfl

theorem inTbuf_iff {cap n : Nat} {k : TextIdx} : inTbuf cap k n = true ↔ tbufBase k ≤ n ∧ n < tbufBase k + cap := by
  simp [inTbuf]

theorem inTbuf_t0 {cap n : Nat} : inTbuf cap .t0 n = true ↔ 0x1000 ≤ n ∧ n < 0x1000 + cap := inTbuf_iff

theorem inTbuf_t1 {cap n : Nat} : inTbuf cap .t1 n = true ↔ 0x1400 ≤ n ∧ n < 0x1400 + cap := inTbuf_iff

theorem inTbuf_t2 {cap n : Nat} : inTbuf cap .t2 n = true ↔ 0x1800 ≤ n ∧ n < 0x1800 + cap := inTbuf_iff

theorem inFbuf_iff {cap n : Nat} : inFbuf cap n = true ↔ 0x2000 ≤ n ∧ n < 0x2000 + frameCap cap := by
  simp only [inFbuf, Bool.and_eq_true, decide_eq_true_eq]
  exact Iff.rfl

theorem locate_tbuf {cap i : Nat} {a : Addr} {k : TextIdx} (hcap : cap ≤ 0x400) (hi : i < cap)
    (ha : a.toNat = 0x1000 + 0x400 * textNumber k + i) : locate cap a = .tbuf k a.toNat := by
  unfold locate
  cases k <;> simp only [textNumber] at ha <;> rw [registerAt_of_ge (by omega)] <;> dsimp only
  · rw [if_pos (by rw [inTbuf_t0]; omega)]
  · rw [if_neg (by rw [inTbuf_t0]; omega), if_pos (by rw [inTbuf_t1]; omega)]
  · rw [if_neg (by rw [inTbuf_t0]; omega), if_neg (by rw [inTbuf_t1]; omega), if_pos (by rw [inTbuf_t2]; omega)]

theorem locate_fbuf {cap i : Nat} {a : Addr} (hcap : cap ≤ 0x400) (hi : i < frameCap cap) (ha : a.toNat = 0x2000 + i) :
    locate cap a = .fbuf a.toNat := by
  unfold locate
  rw [registerAt_of_ge (by omega)]
  dsimp only
  rw [if_neg (by rw [inTbuf_t0]; omega), if_neg (by rw [inTbuf_t1]; omega), if_neg (by rw [inTbuf_t2]; omega),
    if_pos (by rw [inFbuf_iff]; omega)]

theorem locate_reserved {cap : Nat} {a : Addr} (hcap : cap ≤ 0x400) (h : ReservedAddr cap a.toNat) :
    locate cap a = .reserved := by
  have hr : registerAt a.toNat = none := by
    by_cases h13 : a.toNat = 0x0013
    · rw [h13]; rfl
    · refine registerAt_of_ge ?_
      rcases h with h | h | ⟨k, h⟩ | h | h | h <;> first | exact absurd h h13 | omega
  have hw : ¬(0x1000 ≤ a.toNat ∧ a.toNat < 0x1000 + cap) ∧ ¬(0x1400 ≤ a.toNat ∧ a.toNat < 0x1400 + cap) ∧
      ¬(0x1800 ≤ a.toNat ∧ a.toNat < 0x1800 + cap) ∧ ¬(0x2000 ≤ a.toNat ∧ a.toNat < 0x2000 + frameCap cap) := by
    have hf : frameCap cap ≤ 0x1000 := by unfold frameCap; omega
    rcases h with h | h | ⟨k, h⟩ | h | h | h
    · omega
    · omega
    · cases k <;> simp only [textNumber] at h <;> omega
    · omega
    · omega
    · omega
  unfold locate
  rw [hr]
  dsimp only
  rw [if_neg (by rw [inTbuf_t0]; exact hw.1), if_neg (by rw [inTbuf_t1]; exact hw.2.1),
    if_neg (by rw [inTbuf_t2]; exact hw.2.2.1), if_neg (by rw [inFbuf_iff]; exact hw.2.2.2)]

/-- Where an FBUF byte lies: in its window. -/
theorem locate_eq_fbuf {cap n : Nat} {a : Addr} (h : locate cap a = .fbuf n) :
    n = a.toNat ∧ inFbuf cap n = true := by
  unfold locate at h
  split at h
  · next l hl =>
    subst h
    unfold registerAt at hl
    split at hl <;> simp at hl
  · split at h
    · cases h
    · split at h
      · cases h
      · split at h
        · cases h
        · split at h
          · next h1 => cases h; exact ⟨rfl, h1⟩
          · cases h

/-- Where a TBUF byte lies: in its window. -/
theorem locate_eq_tbuf {cap n : Nat} {a : Addr} {k : TextIdx} (h : locate cap a = .tbuf k n) :
    n = a.toNat ∧ inTbuf cap k n = true := by
  unfold locate at h
  split at h
  · next l hl =>
    subst h
    unfold registerAt at hl
    split at hl <;> simp at hl
  · split at h
    · next h1 => cases h; exact ⟨rfl, h1⟩
    · split at h
      · next h1 => cases h; exact ⟨rfl, h1⟩
      · split at h
        · next h1 => cases h; exact ⟨rfl, h1⟩
        · split at h <;> cases h

/-- What a host write can change: nothing; WIGN; a command issue; one TBUF byte; an operand register. All but the first
two happen only while BUSY = 0. -/
theorem busWrite_effect (a : Addr) (v : Byte) (s : State) :
    busWrite a v s = s ∨
    (∃ w, busWrite a v s = { s with status := { s.status with wign := w } }) ∨
    (s.status.busy = false ∧ busWrite a v s = issue v s) ∨
    (s.status.busy = false ∧ ∃ k, inTbuf (textCap s) k a.toNat = true ∧
      busWrite a v s = { s with mem := memStore s.mem a.toNat [v] }) ∨
    (s.status.busy = false ∧ ∃ t, busWrite a v s = t ∧
      t = { s with
        addr := t.addr, argf := t.argf, num0 := t.num0, num1 := t.num1, num2 := t.num2, tlen0Lo := t.tlen0Lo,
        tlen0Hi := t.tlen0Hi, tlen1Lo := t.tlen1Lo, tlen1Hi := t.tlen1Hi, tlen2Lo := t.tlen2Lo,
        tlen2Hi := t.tlen2Hi }) := by
  rcases busWrite_cases a v s with ⟨_, _, h⟩ | ⟨hb, h⟩
  · exact .inr (.inl ⟨true, h⟩)
  · have idle (hl : busyLocked (locate (textCap s) a) = true) : s.status.busy = false := by simpa [hl] using hb
    rw [h]
    cases hl : locate (textCap s) a
    case errcode | nblk | rem | flenLo | flenHi | csum | tcapLo | tcapHi | fbuf | reserved => exact .inl rfl
    case status => exact .inr (.inl ⟨_, rfl⟩)
    case cmd => exact .inr (.inr (.inl ⟨idle (by rw [hl]; rfl), rfl⟩))
    case tbuf k n =>
      obtain ⟨rfl, hi⟩ := locate_eq_tbuf hl
      exact .inr (.inr (.inr (.inl ⟨idle (by rw [hl]; rfl), k, hi, rfl⟩)))
    case tlenLo k => exact .inr (.inr (.inr (.inr ⟨idle (by rw [hl]; rfl), _, rfl, by cases k <;> rfl⟩)))
    case tlenHi k => exact .inr (.inr (.inr (.inr ⟨idle (by rw [hl]; rfl), _, rfl, by cases k <;> rfl⟩)))
    all_goals exact .inr (.inr (.inr (.inr ⟨idle (by rw [hl]; rfl), _, rfl, rfl⟩)))

end Sys2Proof.Machine
end

