-- ==== Sys2Proof/Laws/PerInstr.lean ====
section
/-! SUPPORT. Facts about each command as syntax: its code lies in the legal range of R95, R96 and is a well-formed command
byte of a well-formed command. -/

namespace Sys2Proof.Laws.LegalCode

/-- R95, R96: the code of `i` is in 0x01..0x0F, a well-formed command byte. -/
def Statement (i : Instr) : Prop :=
  i.wellFormed = true ∧ commandByteWellFormed (encode i) = true ∧ 0x01 ≤ (encode i).toNat ∧ (encode i).toNat ≤ 0x0F

theorem line : Statement .line := ⟨rfl, by decide, by decide, by decide⟩

theorem linex : Statement .linex := ⟨rfl, by decide, by decide, by decide⟩

theorem course : Statement .course := ⟨rfl, by decide, by decide, by decide⟩

theorem destid : Statement .destid := ⟨rfl, by decide, by decide, by decide⟩

theorem ticket : Statement .ticket := ⟨rfl, by decide, by decide, by decide⟩

theorem time : Statement .time := ⟨rfl, by decide, by decide, by decide⟩

theorem date : Statement .date := ⟨rfl, by decide, by decide, by decide⟩

theorem nextv : Statement .nextv := ⟨rfl, by decide, by decide, by decide⟩

theorem delay : Statement .delay := ⟨rfl, by decide, by decide, by decide⟩

theorem desttxt : Statement .desttxt := ⟨rfl, by decide, by decide, by decide⟩

theorem nextstop : Statement .nextstop := ⟨rfl, by decide, by decide, by decide⟩

theorem addrdest : Statement .addrdest := ⟨rfl, by decide, by decide, by decide⟩

theorem lineprog : Statement .lineprog := ⟨rfl, by decide, by decide, by decide⟩

theorem screen : Statement .screen := ⟨rfl, by decide, by decide, by decide⟩

theorem frameraw : Statement .frameraw := ⟨rfl, by decide, by decide, by decide⟩

end Sys2Proof.Laws.LegalCode
end

