-- ==== Sys2Proof/Laws/Step.lean ====
section
/-! SUPPORT. What one step of the machine can do: one inversion lemma for the engine, the host, the turn and the step. -/

namespace Sys2Proof.Machine

/-- R123, R125, R252: the engine's step is the completion of the pending command's payload, an illegal code included. -/
theorem engineStep_eq (s : State) :
    engineStep s = if s.status.busy then complete (payloadOfCmd s) s else .next s := by
  unfold engineStep payloadOfCmd
  cases decode s.cmd with
  | ok i => simp [exec_eq_complete]
  | error e => rfl

/-- What a host step can do: nothing, one bus write, one bus read, a branch; the host's own fields follow. -/
theorem hostStep_cases (s : State) :
    ∃ u, (u = s ∨ (∃ a v, u = busWrite a v s) ∨ ∃ a, u = (busRead a s).2) ∧
      hostStep s =
        { u with h := (hostStep s).h, hostPc := (hostStep s).hostPc, listing := (hostStep s).listing } := by
  unfold hostStep
  split
  · next i _ =>
    cases i with
    | wr a v =>
      refine ⟨busWrite a v s, .inr (.inl ⟨a, v, rfl⟩), ?_⟩
      rfl
    | rd a => exact ⟨(busRead a s).2, .inr (.inr ⟨a, rfl⟩), rfl⟩
    | bnz target mask => exact ⟨s, .inl rfl, rfl⟩
    | halt => exact ⟨s, .inl rfl, rfl⟩
  · exact ⟨s, .inl rfl, rfl⟩

/-- While BUSY = 1 a host step moves only WIGN, the count of draws and the host's own fields. -/
theorem hostStep_busy {s : State} (hb : s.status.busy = true) :
    ∃ w d, hostStep s =
      { s with
        status := { s.status with wign := w }, draws := d, h := (hostStep s).h, hostPc := (hostStep s).hostPc
        listing := (hostStep s).listing } := by
  obtain ⟨u, hu, he⟩ := hostStep_cases s
  have hw : ∃ w d, u = { s with status := { s.status with wign := w }, draws := d } := by
    rcases hu with rfl | ⟨a, v, rfl⟩ | ⟨a, rfl⟩
    · exact ⟨_, _, rfl⟩
    · rcases busWrite_effect a v s with h | ⟨w, h⟩ | ⟨h, _⟩ | ⟨h, _⟩ | ⟨h, _⟩
      · exact ⟨s.status.wign, s.draws, h⟩
      · exact ⟨w, s.draws, h⟩
      all_goals rw [hb] at h; cases h
    · rcases busRead_cases a s with ⟨v, _, h⟩ | ⟨_, h⟩ <;> rw [h] <;> exact ⟨s.status.wign, _, rfl⟩
  obtain ⟨w, d, rfl⟩ := hw
  exact ⟨w, d, he⟩

/-- A property of the block's registers, buffers and output that WIGN, a command issue and a write of a TBUF byte keep is
kept by every host step. -/
theorem hostStep_keeps {s : State} {P : State → Prop}
    (ext : ∀ u v : State, u.cmd = v.cmd → u.status = v.status → u.errcode = v.errcode → u.nblk = v.nblk →
      u.rem = v.rem → u.flen = v.flen → u.csum = v.csum → u.mem = v.mem → u.out = v.out → u.tcap = v.tcap →
      u.acc = v.acc → P u → P v)
    (h0 : P s) (hw : ∀ w, P { s with status := { s.status with wign := w } })
    (hi : ∀ v, s.status.busy = false → P (issue v s))
    (ht : ∀ k a v, s.status.busy = false → inTbuf (textCap s) k a = true →
      P { s with mem := memStore s.mem a [v] }) : P (hostStep s) := by
  obtain ⟨u, hu, he⟩ := hostStep_cases s
  rw [he]
  refine ext u _ rfl rfl rfl rfl rfl rfl rfl rfl rfl rfl rfl ?_
  rcases hu with rfl | ⟨a, v, rfl⟩ | ⟨a, rfl⟩
  · exact h0
  · rcases busWrite_effect a v s with h | ⟨w, h⟩ | ⟨hb, h⟩ | ⟨hb, k, hk, h⟩ | ⟨_, t, h, ht'⟩ <;> rw [h]
    · exact h0
    · exact hw w
    · exact hi v hb
    · exact ht k _ v hb hk
    · rw [ht']
      exact ext s _ rfl rfl rfl rfl rfl rfl rfl rfl rfl rfl rfl h0
  · rcases busRead_cases a s with ⟨v, _, h⟩ | ⟨_, h⟩ <;> rw [h]
    · exact h0
    · exact ext s _ rfl rfl rfl rfl rfl rfl rfl rfl rfl rfl rfl h0

/-- Taking a turn from the list changes nothing but the list. -/
theorem nextTurn_state (s : State) : (nextTurn s).2 = { s with turns := (nextTurn s).2.turns } := by
  unfold nextTurn
  cases s.turns <;> rfl

/-- What a step can do, when it answers a next state. -/
theorem step_next {s t : State} (h : step s = .next t) :
    ∃ ts, ((nextTurn s).1 = .host ∧ t = hostStep { s with turns := ts }) ∨
      ((nextTurn s).1 = .engine ∧ s.status.busy = false ∧ t = { s with turns := ts }) ∨
      ((nextTurn s).1 = .engine ∧ s.status.busy = true ∧
        complete (payloadOfCmd { s with turns := ts }) { s with turns := ts } = .next t) ∨
      (∃ b, (nextTurn s).1 = .sink b ∧ t = { s with turns := ts, sinkReady := b }) ∨
      ∃ n, (nextTurn s).1 = .reset n ∧ t = resetBlock n { s with turns := ts } := by
  refine ⟨(nextTurn s).2.turns, ?_⟩
  unfold step at h
  rw [nextTurn_state s] at h
  generalize (nextTurn s).2.turns = ts at h ⊢
  cases ht : (nextTurn s).1 with
  | host =>
    rw [ht] at h
    exact .inl ⟨rfl, by simpa [takeTurn] using h.symm⟩
  | engine =>
    rw [ht] at h
    simp only [takeTurn, engineStep_eq] at h
    cases hb : s.status.busy with
    | false => exact .inr (.inl ⟨rfl, rfl, by simpa [hb] using h.symm⟩)
    | true => exact .inr (.inr (.inl ⟨rfl, rfl, by simpa [hb] using h⟩))
  | sink b =>
    rw [ht] at h
    exact .inr (.inr (.inr (.inl ⟨b, rfl, by simpa [takeTurn] using h.symm⟩)))
  | reset n =>
    rw [ht] at h
    exact .inr (.inr (.inr (.inr ⟨n, rfl, by simpa [takeTurn] using h.symm⟩)))

end Sys2Proof.Machine
end

