-- ==== Sys2Proof/Tests/Slice0.lean ====
section
/-! SUPPORT. Tests of the model: ill-formed terms refused, command bytes written out from spec/30_encoding.md R95, vectors
of spec/95_test_vectors.md (named in each docstring), and for every statement with hypotheses a witness that meets them.
Each test takes one step at most. -/

namespace Sys2Proof.Tests

open Sys2Proof.Machine

/-! ## States and readings -/

/-- `s` with NUM = n. -/
def withNum (n : BitVec 20) (s : State) : State :=
  { s with num0 := n.extractLsb' 0 8, num1 := n.extractLsb' 8 8, num2 := n.extractLsb' 16 4 }

/-- `s` with TLENk = n. -/
def withLen (k : TextIdx) (n : Nat) (s : State) : State :=
  writeTlenHi (BitVec.ofNat 8 (n / 256)) (writeTlenLo (BitVec.ofNat 8 n) s k) k

/-- `s` with text `k` written. -/
def withTxt (k : TextIdx) (t : Bytes) (s : State) : State :=
  withLen k t.length { s with mem := memStore s.mem (tbufBase k) t }

/-- `s` with ADDR = a. -/
def withAddr (a : Byte) (s : State) : State := { s with addr := a }

/-- `s` with SGN and WSEL as given. -/
def withArgf (w : BitVec 2) (g : BitVec 1) (s : State) : State := { s with argf := w ++ g }

/-- The state after a step, if there is one. -/
def after (o : Host.Outcome State Fault Refusal) : Option State :=
  match o with
  | .next t => some t
  | .fault _ => none
  | .refused _ => none

/-- The fault of a step, if there is one. -/
def faultOf (o : Host.Outcome State Fault Refusal) : Option Fault :=
  match o with
  | .next _ => none
  | .fault f => some f
  | .refused _ => none

/-- The frames handed over, after a step from a state that had handed over none. -/
def frames (o : Host.Outcome State Fault Refusal) : Option (List Bytes) := (after o).map (fun t => t.out.map (·.bytes))

/-- NBLK, REM and CSUM after a step. -/
def results (o : Host.Outcome State Fault Refusal) : Option (List Byte) := (after o).map (fun t => [t.nblk, t.rem, t.csum])

/-- STATUS and ERRCODE after a step. -/
def flags (o : Host.Outcome State Fault Refusal) : Option (List Byte) :=
  (after o).map (fun t => [statusWord t.status, t.errcode])

/-- Issue the command of a table word and let the engine take its step. -/
def send (w : Nat) (s : State) : Host.Outcome State Fault Refusal := step (s.withFetchWord 8 w)

/-- VS3: LINE issued, not completed. -/
def busyLine : State := issue 0x01 State.reset

/-- LINE of NUM = 0 completed. -/
def doneLine : State := successCompletion [0x6C, 0x30, 0x30, 0x30] 0 0 busyLine

/-- T0 = `"Hi"`. -/
def hi : State := withTxt .t0 [0x48, 0x69] State.reset

/-- ADDR = 3, T0 = `"12"`, T1 = `"Markt"`, T2 empty (VB18). -/
def markt : State :=
  withTxt .t2 [] (withTxt .t1 [0x4D, 0x61, 0x72, 0x6B, 0x74] (withTxt .t0 [0x31, 0x32] (withAddr 3 State.reset)))

/-! ## WellFormed refuses what is ill-formed -/

theorem test_wf_code_zero : commandByteWellFormed 0x00 = false := by decide
theorem test_wf_code_above : commandByteWellFormed 0x10 = false := by decide
theorem test_wf_cap_below : textCapWellFormed 15 = false := by decide
theorem test_wf_cap_above : textCapWellFormed 1021 = false := by decide
theorem test_wf_reset_cap : textCapWellFormed (textCap State.reset) = true := by decide
theorem test_wf_instr : Instr.wellFormed .screen = true := by decide

/-! ## Decoding, from the words of R95 -/

theorem test_decode_line : decodeTableWord 8 0b00000001 = some .line := by decide
theorem test_decode_linex : decodeTableWord 8 0b00000010 = some .linex := by decide
theorem test_decode_course : decodeTableWord 8 0b00000011 = some .course := by decide
theorem test_decode_destid : decodeTableWord 8 0b00000100 = some .destid := by decide
theorem test_decode_ticket : decodeTableWord 8 0b00000101 = some .ticket := by decide
theorem test_decode_time : decodeTableWord 8 0b00000110 = some .time := by decide
theorem test_decode_date : decodeTableWord 8 0b00000111 = some .date := by decide
theorem test_decode_nextv : decodeTableWord 8 0b00001000 = some .nextv := by decide
theorem test_decode_delay : decodeTableWord 8 0b00001001 = some .delay := by decide
theorem test_decode_desttxt : decodeTableWord 8 0b00001010 = some .desttxt := by decide
theorem test_decode_nextstop : decodeTableWord 8 0b00001011 = some .nextstop := by decide
theorem test_decode_addrdest : decodeTableWord 8 0b00001100 = some .addrdest := by decide
theorem test_decode_lineprog : decodeTableWord 8 0b00001101 = some .lineprog := by decide
theorem test_decode_screen : decodeTableWord 8 0b00001110 = some .screen := by decide
theorem test_decode_frameraw : decodeTableWord 8 0b00001111 = some .frameraw := by decide
theorem test_decode_illegal_low : decodeTableWord 8 0b00000000 = none := by decide
theorem test_decode_illegal_high : decodeTableWord 8 0b00010000 = none := by decide

/-! ## The commands, each issued and completed in one step -/

/-- VF2. -/
theorem test_line : frames (send 0x01 (withNum 42 State.reset)) = some [[0x6C, 0x30, 0x34, 0x32, 0x0D, 0x28]] := by decide
/-- VF4. -/
theorem test_line_overflow : flags (send 0x01 (withNum 1000 State.reset)) = some [0x06, 0x04] := by decide
/-- VF6. -/
theorem test_linex :
    frames (send 0x02 (withNum 1234 State.reset)) = some [[0x71, 0x31, 0x32, 0x33, 0x34, 0x0D, 0x07]] := by decide
/-- VF8. -/
theorem test_linex_overflow : flags (send 0x02 (withNum 10000 State.reset)) = some [0x06, 0x04] := by decide
/-- VF10. -/
theorem test_course : frames (send 0x03 (withNum 7 State.reset)) = some [[0x6B, 0x30, 0x37, 0x0D, 0x1E]] := by decide
/-- VF12. -/
theorem test_course_overflow : flags (send 0x03 (withNum 100 State.reset)) = some [0x06, 0x04] := by decide
/-- VF14. -/
theorem test_destid : frames (send 0x04 (withNum 5 State.reset)) = some [[0x7A, 0x30, 0x30, 0x35, 0x0D, 0x3D]] := by decide
/-- VF16. -/
theorem test_destid_overflow : flags (send 0x04 (withNum 1000 State.reset)) = some [0x06, 0x04] := by decide
/-- VF18. -/
theorem test_ticket :
    frames (send 0x05 (withNum 123456 State.reset)) = some [[0x65, 0x31, 0x32, 0x33, 0x34, 0x35, 0x36, 0x0D, 0x10]] := by
  decide
/-- VF21. -/
theorem test_ticket_overflow : flags (send 0x05 (withNum 1048575 State.reset)) = some [0x06, 0x04] := by decide
/-- VF24. -/
theorem test_time :
    frames (send 0x06 (withNum 1437 State.reset)) = some [[0x75, 0x31, 0x34, 0x33, 0x37, 0x0D, 0x06]] := by decide
/-- VF26: no meaning is checked, and a checksum may be 0x00. -/
theorem test_time_unchecked :
    frames (send 0x06 (withNum 2599 State.reset)) = some [[0x75, 0x32, 0x35, 0x39, 0x39, 0x0D, 0x00]] := by decide
/-- VF30. -/
theorem test_date :
    frames (send 0x07 (withNum 11116 State.reset)) = some [[0x64, 0x31, 0x31, 0x31, 0x31, 0x36, 0x0D, 0x20]] := by decide
/-- VF32. -/
theorem test_date_overflow : flags (send 0x07 (withNum 100000 State.reset)) = some [0x06, 0x04] := by decide
/-- VF40: a byte ≥ 0x80 that is not remapped sets HIBIT and bit 7 of the checksum. -/
theorem test_nextv_hibit :
    flags (send 0x08 (withTxt .t0 [0x43, 0x61, 0x66, 0xE9] State.reset)) = some [0x12, 0x00] ∧
      frames (send 0x08 (withTxt .t0 [0x43, 0x61, 0x66, 0xE9] State.reset)) =
        some [[0x76, 0x43, 0x61, 0x66, 0xE9] ++ List.replicate 12 0x20 ++ [0x0D, 0xA9]] := by decide
/-- VF41, VF42: E_WSEL, and E_TLEN before it. -/
theorem test_nextv_errors :
    flags (send 0x08 (withArgf 3 0 (withTxt .t0 [0x41] State.reset))) = some [0x06, 0x03] ∧
      flags (send 0x08 (withArgf 3 0 (withLen .t0 257 State.reset))) = some [0x06, 0x02] := by decide
/-- VF45. -/
theorem test_delay :
    frames (send 0x09 (withNum 5 State.reset)) = some [[0x78, 0x56, 0x2B, 0x30, 0x30, 0x35, 0x0D, 0x42]] := by decide
/-- VF46. -/
theorem test_delay_minus :
    frames (send 0x09 (withArgf 0 1 (withNum 120 State.reset))) =
      some [[0x78, 0x56, 0x2D, 0x31, 0x32, 0x30, 0x0D, 0x42]] := by decide
/-- VB5. -/
theorem test_desttxt :
    frames (send 0x0A (withTxt .t0 [0x4C, 0xFC, 0x62, 0x65, 0x63, 0x6B] State.reset)) =
      some [[0x7A, 0x41, 0x31, 0x4C, 0x7D, 0x62, 0x65, 0x63, 0x6B] ++ List.replicate 10 0x20 ++ [0x0D, 0x46]] := by decide
/-- VB1. -/
theorem test_desttxt_empty :
    frames (send 0x0A State.reset) = some [[0x7A, 0x41, 0x30, 0x0D, 0x79]] ∧
      results (send 0x0A State.reset) = some [0x00, 0x00, 0x79] := by decide
/-- VB9 (W10). -/
theorem test_nextstop :
    frames (send 0x0B hi) = some [[0x7A, 0x49, 0x31, 0x48, 0x69, 0x20, 0x20, 0x0D, 0x51]] ∧
      results (send 0x0B hi) = some [0x01, 0x00, 0x51] := by decide
/-- VB12 (W11). -/
theorem test_addrdest :
    frames (send 0x0C (withAddr 5 (withTxt .t0 [0x48, 0x65, 0x6C, 0x6C, 0x6F, 0x20, 0x57, 0x6F, 0x72, 0x6C, 0x64]
      State.reset))) =
      some [[0x61, 0x41, 0x35, 0x33, 0x48, 0x65, 0x6C, 0x6C, 0x6F, 0x20, 0x57, 0x6F, 0x72, 0x6C, 0x64, 0x0D, 0x74]] := by
  decide
/-- VB14: a two-symbol address. -/
theorem test_addrdest_wide :
    frames (send 0x0C (withAddr 255 (withTxt .t0 [0x58] State.reset))) =
      some [[0x61, 0x41, 0x3F, 0x3F, 0x31, 0x58, 0x0D, 0x3B]] := by decide
/-- VB18. -/
theorem test_lineprog :
    frames (send 0x0D markt) =
      some [[0x61, 0x4C, 0x33, 0x31, 0x3A, 0x03, 0x31, 0x32, 0x04, 0x4D, 0x61, 0x72, 0x6B, 0x74, 0x05, 0x0D, 0x27]] ∧
      results (send 0x0D markt) = some [0x01, 0x0A, 0x27] := by decide
/-- VB21. -/
theorem test_lineprog_length :
    flags (send 0x0D (withLen .t2 400 (withLen .t1 300 State.reset))) = some [0x06, 0x02] := by decide
/-- VB23: the end marker and no separator. -/
theorem test_screen_empty :
    frames (send 0x0E State.reset) =
      some [[0x61, 0x41, 0x30, 0x31, 0x0A, 0x0A] ++ List.replicate 14 0x20 ++ [0x0D, 0x53]] := by decide
/-- VB24: the separator depends on line 2 alone. -/
theorem test_screen_second_line :
    frames (send 0x0E (withTxt .t1 [0x58] State.reset)) =
      some [[0x61, 0x41, 0x30, 0x31, 0x0A, 0x58, 0x0A, 0x0A] ++ List.replicate 12 0x20 ++ [0x0D, 0x01]] := by decide
/-- VR3: every row of the remap table. -/
theorem test_frameraw :
    frames (send 0x0F (withTxt .t0 [0xE4, 0xF6, 0xFC, 0xDF, 0xC4, 0xD6, 0xDC] State.reset)) =
      some [[0x7B, 0x7C, 0x7D, 0x7E, 0x5B, 0x5C, 0x5D, 0x0D, 0x2C]] := by decide
/-- VR1. -/
theorem test_frameraw_empty : frames (send 0x0F State.reset) = some [[0x0D, 0x72]] := by decide
/-- VE2: an illegal code. -/
theorem test_illegal : flags (send 0x10 State.reset) = some [0x06, 0x01] ∧ frames (send 0x10 State.reset) = some [] := by
  decide
/-- VS13: an unwritten text byte. -/
theorem test_unwritten : faultOf (send 0x0F (withLen .t0 1 State.reset)) = some .unwrittenText := by decide

/-! ## The codec -/

/-- VC4, VC5. -/
theorem test_hex : hex 0x5A = [0x35, 0x3A] ∧ hex 0xF0 = [0x3F, 0x30] ∧ hex 0x0A = [0x3A] := by decide
/-- VC9: bytes the remap does not alter. -/
theorem test_remap_unaltered : remap [0x7D, 0xE9, 0x00, 0x0D, 0x80] = [0x7D, 0xE9, 0x00, 0x0D, 0x80] := by decide
/-- VC12. -/
theorem test_pad : pad (List.replicate 17 0x41) 16 = (2, List.replicate 17 0x41 ++ List.replicate 15 0x20) := by decide

/-! ## The host bus, the turns and reset -/

/-- VS2. -/
theorem test_tcap : (busRead 0x0014 State.reset).1 = 0x00 ∧ (busRead 0x0015 State.reset).1 = 0x01 := by decide
/-- VS4, VS7: writes while busy are lost and set WIGN. -/
theorem test_busy_write :
    (busWrite 0x0005 0x05 busyLine).num0 = 0x00 ∧ statusWord (busWrite 0x0005 0x05 busyLine).status = 0x09 ∧
      (busWrite 0x0000 0x02 busyLine).cmd = 0x01 := by decide
/-- VS6. -/
theorem test_status_write :
    statusWord (busWrite 0x0001 0x08 (busWrite 0x0000 0x02 busyLine)).status = 0x01 := by decide
/-- VS10, VS11, VS12. -/
theorem test_reserved :
    (busRead 0x0004 (busWrite 0x0004 0xFF State.reset)).1 = 0x07 ∧
      (busRead 0x0007 (busWrite 0x0007 0xFF State.reset)).1 = 0x0F ∧
      (busRead 0x1100 (busWrite 0x1100 0x41 State.reset)).1 = 0x00 := by decide
/-- VS15: FBUF is read-only. -/
theorem test_fbuf : (busRead 0x2000 (busWrite 0x2000 0x00 doneLine)).1 = 0x6C := by decide
/-- VS16: reset cuts a pending frame at any length, or hands over none. -/
theorem test_reset_cut :
    (resetBlock 0 busyLine).out = [] ∧ (resetBlock 1 busyLine).out = [{ bytes := [0x6C], truncated := true }] ∧
      (resetBlock 6 busyLine).out =
        [{ bytes := [0x6C, 0x30, 0x30, 0x30, 0x0D, 0x2E], truncated := true }] := by decide
/-- VS18: a sink that never accepts holds the completion. -/
theorem test_stall :
    (after (step { busyLine with sinkReady := false, turns := [.engine] })).map (fun t => statusWord t.status) =
      some 0x01 := by decide
/-- P5, outcome a: the completion comes before the host's write, which then stores. -/
theorem test_p5_completion_first :
    (busWrite 0x0005 0x08 doneLine).num0 = 0x08 ∧ (busWrite 0x0005 0x08 doneLine).status.wign = false := by decide
/-- R99: one host instruction, one bus access. -/
theorem test_host_step :
    (after (step { State.reset with hostProg := [.wr 0x0003 0x2A] })).map (fun t => [t.addr, BitVec.ofNat 8 t.hostPc]) =
      some [0x2A, 0x01] := by decide
/-- R100, P1: the encoding of `LINE 42` and a `bnz` over a `wait`. -/
theorem test_assemble :
    assemble [.number .line 42, .plain (.label 7), .plain (.bnz 7 0x10), .plain .halt] =
      [.wr 0x0005 0x2A, .wr 0x0006 0x00, .wr 0x0007 0x00, .wr 0x0000 0x01, .rd 0x0001, .bnz 4 0x01, .bnz 6 0x10,
        .halt] := by decide
/-- R101, P2: a write and a read as the listing writes them. -/
theorem test_listing :
    listingLine (.write 0x1001 0x69) = ['W', ' ', '1', '0', '0', '1', ' ', '6', '9'] ∧
      listingLine (.read 0x000F 0x09) = ['R', ' ', '0', '0', '0', 'F'] := by decide

/-- VS17: an error keeps NBLK and CSUM of the success before it, and the host reads its code. -/
theorem test_error_keeps_results :
    (after (send 0x01 (withNum 1000 (successCompletion [0x7A, 0x49, 0x31, 0x48, 0x69, 0x20, 0x20] 1 0 hi)))).map
        (fun t => [(busRead 0x000E t).1, (busRead 0x0012 t).1, (busRead 0x0010 t).1, (busRead 0x0002 t).1]) =
      some [0x01, 0x51, 0x00, 0x04] := by decide

/-! ## Witnesses: for each statement with hypotheses, a state and operands that meet them, clause by clause -/

theorem capOk_reset : CapOk State.reset := ⟨by decide, by decide⟩

theorem capOk_busyLine : CapOk busyLine := ⟨by decide, by decide⟩

theorem capOk_doneLine : CapOk doneLine := ⟨by decide, by decide⟩

/-- FBUF holds the frame of LINE 0 after its completion. -/
theorem fbuf_doneLine : FbufHolds doneLine (frame [0x6C, 0x30, 0x30, 0x30]) := fbufHolds_successCompletion _ 0 0 busyLine

theorem texts_hi : TextHolds hi .t0 [0x48, 0x69] := ⟨by decide, by decide⟩

theorem texts_markt : TextHolds markt .t0 [0x31, 0x32] ∧ TextHolds markt .t1 [0x4D, 0x61, 0x72, 0x6B, 0x74] ∧
    TextHolds markt .t2 [] := ⟨⟨by decide, by decide⟩, ⟨by decide, by decide⟩, ⟨by decide, by decide⟩⟩

theorem witness_OpcodeMapCodesAndPrefixes : payload .nextstop hi = .ok [0x7A, 0x49, 0x31, 0x48, 0x69, 0x20, 0x20] 1 0 := by
  decide

theorem witness_DecodeAndEncodeAgree : decode 0x0F = .ok .frameraw := by decide

theorem witness_IllegalCodeFailsAtCompletion :
    ((0x00 : Byte).toNat = 0 ∧ 0x10 ≤ (0x10 : Byte).toNat ∧ 0x10 ≤ (0xFF : Byte).toNat) ∧
      State.reset.status.busy = false ∧ (issue 0x10 State.reset).status.busy = true ∧
      (issue 0x10 State.reset).cmd = 0x10 := by decide

theorem witness_StepRunsDecodedCommand :
    busyLine.status.busy = true ∧ decode busyLine.cmd = .ok .line ∧ busyLine.turns = [] ∧ busyLine.sinkReady = true ∧
      { busyLine with turns := [.engine, .host] }.turns = .engine :: [.host] ∧
      payload .line (withNum 1000 { busyLine with sinkReady := false }) = .error .numOvf := by decide

/-- Each turn; and with none listed an enabled engine (an illegal code with a sink that does not accept), a stalled one, and
an idle block. -/
theorem witness_StepTakesTheListedTurn :
    { State.reset with turns := [.host] }.turns = .host :: [] ∧
      { busyLine with turns := [.engine] }.turns = .engine :: [] ∧
      { State.reset with turns := [.sink false] }.turns = .sink false :: [] ∧
      { busyLine with turns := [.reset 3] }.turns = .reset 3 :: [] ∧
      (State.reset.turns = [] ∧ engineEnabled { issue 0x10 State.reset with sinkReady := false } = true ∧
        payloadOfCmd { issue 0x10 State.reset with sinkReady := false } = .error .illegalCmd) ∧
      engineEnabled { busyLine with sinkReady := false } = false ∧ engineEnabled State.reset = false ∧
      State.reset.status.busy = false ∧ busyLine.status.busy = true ∧ decode busyLine.cmd = .ok .line ∧
      decode (issue 0x10 State.reset).cmd = .error (.illegalCode 0x10) := by decide

theorem witness_OnlyUnwrittenTextFaults : faultOf (step (issue 0x0F (withLen .t0 1 State.reset))) = some .unwrittenText := by
  decide

/-- R282, each case: a pending LINE that would succeed (with a cut after 1 and after all 6 bytes), commands that would fail
(a number, an illegal code, a text too long), and one with an unwritten byte. -/
theorem witness_ResetCutsThePendingFrame :
    (busyLine.status.busy = true ∧ payloadOfCmd busyLine = .ok [0x6C, 0x30, 0x30, 0x30] 0 0 ∧ (1 : Nat) ≤ 6 ∧
      6 ≤ (frame [0x6C, 0x30, 0x30, 0x30]).length) ∧
    ((withNum 1000 busyLine).status.busy = true ∧ payloadOfCmd (withNum 1000 busyLine) = .error .numOvf) ∧
    ((issue 0x10 State.reset).status.busy = true ∧ payloadOfCmd (issue 0x10 State.reset) = .error .illegalCmd) ∧
    ((issue 0x0F (withLen .t0 257 State.reset)).status.busy = true ∧
      payloadOfCmd (issue 0x0F (withLen .t0 257 State.reset)) = .error .tlen) ∧
    ((issue 0x0F (withLen .t0 1 State.reset)).status.busy = true ∧
      payloadOfCmd (issue 0x0F (withLen .t0 1 State.reset)) = .unwritten) := by decide

/-- R63 at the edges of every range, with TEXT_CAP = 256 and FRAME_CAP = 800. -/
theorem witness_ReservedAndReadOnlyIgnoreWrites :
    CapOk State.reset ∧ ReservedAddr 256 0x0013 ∧ ReservedAddr 256 0x0016 ∧ ReservedAddr 256 0x0FFF ∧
      ReservedAddr 256 0x1100 ∧ ReservedAddr 256 0x13FF ∧ ReservedAddr 256 0x1BFF ∧ ReservedAddr 256 0x1C00 ∧
      ReservedAddr 256 0x1FFF ∧ ReservedAddr 256 0x2320 ∧ ReservedAddr 256 0x2FFF ∧ ReservedAddr 256 0x3000 ∧
      ReservedAddr 256 0xFFFF ∧ ReadOnlyAddr 256 0x0002 ∧ ReadOnlyAddr 256 0x000E ∧ ReadOnlyAddr 256 0x0012 ∧
      ReadOnlyAddr 256 0x0015 ∧ ReadOnlyAddr 256 0x2000 ∧ ReadOnlyAddr 256 0x231F := by
  refine ⟨capOk_reset, ?_, ?_, ?_, .inr (.inr (.inl ⟨.t0, ?_⟩)), .inr (.inr (.inl ⟨.t0, ?_⟩)),
    .inr (.inr (.inl ⟨.t2, ?_⟩)), ?_⟩ <;> simp [ReservedAddr, ReadOnlyAddr, frameCap, textNumber]

theorem witness_ReservedBitsReadZero :
    (0xF9 : Byte).extractLsb' 0 3 = (0x01 : Byte).extractLsb' 0 3 ∧ (0xF1 : Byte).extractLsb' 0 4 = (0x01 : Byte).extractLsb' 0 4 ∧
      (0xE8 : Byte).extractLsb' 0 5 = (0x08 : Byte).extractLsb' 0 5 := by decide

theorem witness_OperandRegistersReadBack : State.reset.status.busy = false := by decide

/-- The bytes of NUM and of TLEN1 in an order that is not the address order. -/
theorem witness_MultiByteRegistersAreLittleEndian :
    State.reset.status.busy = false ∧
      [((0x0007 : Addr), (0xFF : Byte)), (0x0005, 0x2A), (0x0006, 0x00)].Perm [(0x0005, 0x2A), (0x0006, 0x00), (0x0007, 0xFF)] ∧
      [((0x000B : Addr), (0x01 : Byte)), (0x000A, 0x02)].Perm
        [(BitVec.ofNat 16 (0x0008 + 2 * textNumber .t1), 0x02), (BitVec.ofNat 16 (0x0009 + 2 * textNumber .t1), 0x01)] := by
  decide

/-- R71 at the first and the last mapped byte of a window and at the first and the last reserved one. -/
theorem witness_TextBufferWindows :
    CapOk hi ∧ (0x1000 : Addr).toNat = 0x1000 + 0x400 * textNumber .t0 + 0 ∧ 0 < textCap hi ∧ hi.status.busy = false ∧
      memLookup hi.mem 0x1000 = some 0x48 ∧ (0x10FF : Addr).toNat = 0x1000 + 0x400 * textNumber .t0 + 255 ∧
      255 < textCap hi ∧ memLookup hi.mem 0x10FF = none ∧ busyLine.status.busy = true ∧ CapOk busyLine ∧
      (0x1900 : Addr).toNat = 0x1000 + 0x400 * textNumber .t2 + 256 ∧ textCap hi ≤ 256 ∧
      (0x1BFF : Addr).toNat = 0x1000 + 0x400 * textNumber .t2 + 0x3FF ∧ 0x3FF < 0x400 :=
  ⟨⟨by decide, by decide⟩, by decide, by decide, by decide, by decide, by decide, by decide, by decide, by decide,
    capOk_busyLine, by decide, by decide, by decide, by decide⟩

theorem witness_BusyLockIgnoresWrites :
    CapOk busyLine ∧ busyLine.status.busy = true ∧ LockedAddr (textCap busyLine) 0x0000 ∧
      LockedAddr (textCap busyLine) 0x0003 ∧ LockedAddr (textCap busyLine) 0x000D ∧
      LockedAddr (textCap busyLine) 0x1000 ∧ LockedAddr (textCap busyLine) 0x18FF ∧
      ReadOnlyAddr (textCap busyLine) 0x0002 ∧ ReservedAddr (textCap busyLine) 0x1100 := by
  rw [show textCap busyLine = 256 by decide]
  exact ⟨capOk_busyLine, by decide, .inl rfl, .inr (.inl (by decide)), .inr (.inl (by decide)),
    .inr (.inr ⟨.t0, by decide⟩), .inr (.inr ⟨.t2, by decide⟩), .inl rfl, .inr (.inr (.inl ⟨.t0, by decide⟩))⟩

theorem witness_StatusWriteClearsOnlyWign : (0x08 : Byte).getLsbD 3 = true ∧ (0xF7 : Byte).getLsbD 3 = false := by decide

theorem witness_ReadsWhileBusy :
    CapOk (issue 0x0B hi) ∧ (issue 0x0B hi).status.busy = true ∧ ResultAddr (textCap (issue 0x0B hi)) 0x0002 ∧
      ResultAddr (textCap (issue 0x0B hi)) 0x0012 ∧ ResultAddr (textCap (issue 0x0B hi)) 0x231F ∧
      1 < textCap (issue 0x0B hi) ∧ (0x1001 : Addr).toNat = 0x1000 + 0x400 * textNumber .t0 + 1 ∧
      memLookup (issue 0x0B hi).mem 0x1001 = some 0x69 := by
  rw [show textCap (issue 0x0B hi) = 256 by decide]
  exact ⟨⟨by decide, by decide⟩, by decide, .inl rfl, .inr (.inl (by decide)), .inr (.inr (by decide)), by decide,
    by decide, by decide⟩

/-- A state after a success (reset's results are all 0). -/
theorem witness_ReadsWhileIdle : doneLine.status.busy = false ∧ doneLine.csum = 0x2E := by decide

/-- VS17: an error after a success whose CSUM is not 0, of a command and of an illegal code. -/
theorem witness_ErrorIsVisibleToReads :
    CapOk (issue 0x10 doneLine) ∧ (issue 0x10 doneLine).status.busy = true ∧
      payloadOfCmd (issue 0x10 doneLine) = .error .illegalCmd ∧
      (after (engineStep (issue 0x10 doneLine))).isSome = true ∧
      payloadOfCmd (withNum 1000 (issue 0x01 doneLine)) = .error .numOvf ∧
      (after (engineStep (withNum 1000 (issue 0x01 doneLine)))).isSome = true ∧ doneLine.csum ≠ 0x00 ∧
      0 < frameCap (textCap (issue 0x10 doneLine)) ∧ 799 < frameCap (textCap (issue 0x10 doneLine)) :=
  ⟨⟨by decide, by decide⟩, by decide, by decide, by decide, by decide, by decide, by decide, by decide, by decide⟩

theorem witness_CommandIssue : State.reset.status.busy = false ∧ doneLine.status.busy = false := by decide

/-- R72 at the last frame byte, the first byte beyond it, the last mapped byte, and the first and last reserved ones; and
while BUSY = 1. -/
theorem witness_FrameBufferWindow :
    (CapOk doneLine ∧ FbufHolds doneLine (frame [0x6C, 0x30, 0x30, 0x30]) ∧
      (frame [0x6C, 0x30, 0x30, 0x30]).length ≤ frameCap (textCap doneLine) ∧ doneLine.status.busy = false) ∧
    (5 < (frame [0x6C, 0x30, 0x30, 0x30]).length ∧ (0x2005 : Addr).toNat = 0x2000 + 5) ∧
    ((frame [0x6C, 0x30, 0x30, 0x30]).length ≤ 6 ∧ (0x2006 : Addr).toNat = 0x2000 + 6) ∧
    (799 < frameCap (textCap doneLine) ∧ (0x231F : Addr).toNat = 0x2000 + 799) ∧
    (frameCap (textCap doneLine) ≤ 800 ∧ (0x2320 : Addr).toNat = 0x2000 + 800 ∧ (0x2FFF : Addr).toNat = 0x2000 + 0xFFF) ∧
    FbufHolds (issue 0x01 doneLine) (frame [0x6C, 0x30, 0x30, 0x30]) ∧ (issue 0x01 doneLine).status.busy = true :=
  ⟨⟨capOk_doneLine, fbuf_doneLine, by decide, by decide⟩, by decide, by decide, by decide, by decide, fbuf_doneLine,
    by decide⟩

/-- A command that succeeds with a block count and a remainder (VB18), for the statements about every success. -/
theorem witness_CompletionIsVisibleToReads :
    CapOk markt ∧ markt.sinkReady = true ∧
      payload .lineprog markt =
        .ok [0x61, 0x4C, 0x33, 0x31, 0x3A, 0x03, 0x31, 0x32, 0x04, 0x4D, 0x61, 0x72, 0x6B, 0x74, 0x05] 1 10 ∧
      (after (exec .lineprog markt)).isSome = true ∧
      16 < (frame [0x61, 0x4C, 0x33, 0x31, 0x3A, 0x03, 0x31, 0x32, 0x04, 0x4D, 0x61, 0x72, 0x6B, 0x74, 0x05]).length :=
  ⟨⟨by decide, by decide⟩, by decide, by decide, by decide, by decide⟩

/-- R69: addresses that are not busy-locked, at the edges of the locked ranges, and one that is not CMD. -/
theorem witness_HostReadsHaveNoSideEffect :
    ¬LockedAddr 256 0x0002 ∧ ¬LockedAddr 256 0x000E ∧ ¬LockedAddr 256 0x0FFF ∧ ¬LockedAddr 256 0x1100 ∧
      ¬LockedAddr 256 0x2000 ∧ (0x0002 : Addr).toNat ≠ 0x0001 ∧ (0x1000 : Addr).toNat ≠ 0x0000 := by
  refine ⟨?_, ?_, ?_, ?_, ?_, by decide, by decide⟩ <;>
    · rintro (h | h | ⟨k, h⟩)
      · omega
      · omega
      · cases k <;> simp only [textNumber] at h <;> omega

theorem witness_TcapIsHardwired : (after (step busyLine)).isSome = true := by decide

theorem witness_WrittenTextIsReadBack :
    CapOk State.reset ∧ State.reset.status.busy = false ∧ ([] : Bytes).length ≤ textCap State.reset ∧
      (List.replicate 256 (0x41 : Byte)).length ≤ textCap State.reset :=
  ⟨capOk_reset, by decide, by decide, by rw [List.length_replicate]; decide⟩

theorem witness_HostInstructionsAct :
    ({ State.reset with hostProg := [.wr 0x0003 1] }.hostProg[0]? = some (.wr 0x0003 1) ∧
      { State.reset with hostProg := [.rd 0x0003] }.hostProg[0]? = some (.rd 0x0003)) ∧
    ({ State.reset with hostProg := [.bnz 5 1], h := 3 }.hostProg[0]? = some (.bnz 5 1) ∧ (3 : Byte) &&& 1 ≠ 0 ∧
      (2 : Byte) &&& 1 = 0) ∧
    { State.reset with hostProg := [.halt] }.hostProg[0]? = some .halt ∧ State.reset.hostProg[State.reset.hostPc]? = none := by
  decide

theorem witness_HexNibbleEncoding :
    (0x0F : Byte).toNat < 16 ∧ 16 ≤ (0x10 : Byte).toNat ∧ hex 0xFF = hex 0xFF := by decide

theorem witness_DecimalFieldDenotesNumber : 0 < (dec 3 999).length ∧ 999 < 10 ^ 3 := by decide

theorem witness_LjustFillsTheField :
    ([0x41] : Bytes).length ≤ 16 ∧ ([0x41] : Bytes).length ≤ 15 ∧ 15 < 16 ∧ (List.replicate 16 (0x41 : Byte)).length = 16 := by
  decide

theorem witness_RemapProperties :
    (0x7D : Byte) ∉ ([0xE4, 0xF6, 0xFC, 0xDF, 0xC4, 0xD6, 0xDC] : Bytes) ∧
      ∀ b ∈ ([0x54, 0x65] : Bytes), b ∉ ([0xE4, 0xF6, 0xFC, 0xDF, 0xC4, 0xD6, 0xDC] : Bytes) := by decide

theorem witness_BlockPadding : (List.replicate 16 (0x41 : Byte)).length % 16 = 0 ∧ ([] : Bytes).length % 4 = 0 := by decide

/-- R155: a success of each block-structured command. -/
theorem witness_HexInputsAreInRange :
    CapOk hi ∧ payload .desttxt hi = .ok ([0x7A, 0x41, 0x31, 0x48, 0x69] ++ List.replicate 14 0x20) 1 0 ∧
      payload .addrdest hi = .ok [0x61, 0x41, 0x30, 0x31, 0x48, 0x69] 1 0 ∧
      payload .screen hi = .ok ([0x61, 0x41, 0x30, 0x31, 0x48, 0x69, 0x0A, 0x0A] ++ List.replicate 12 0x20) 1 0 :=
  ⟨⟨by decide, by decide⟩, by decide, by decide, by decide⟩

/-- R235: an error in bit 7 of the first and of the last byte, and one that is missed. -/
theorem witness_FrameSelfCheck :
    ([0x80, 0x00] : Bytes).length = (frame []).length ∧ accFold 0x00 ([0x80, 0x80] : Bytes) = 0x00 ∧ 7 < 8 ∧
      0 < (frame []).length ∧ 1 < (frame []).length := by decide

theorem witness_ChecksumTopBitIsParity : ∀ b ∈ remap [0x4D, 0xFC], b.toNat < 0x80 := by decide

/-- R238: a success with HIBIT = 1 and one with HIBIT = 0. -/
theorem witness_HibitReportsHighBytes :
    payload .frameraw (withTxt .t0 [0x80] State.reset) = .ok [0x80] 0 0 ∧
      (after (exec .frameraw (withTxt .t0 [0x80] State.reset))).isSome = true ∧ payload .frameraw hi = .ok [0x48, 0x69] 0 0 ∧
      (after (exec .frameraw hi)).isSome = true := by decide

theorem witness_FrameSizeBounds : CapOk State.reset ∧ payload .course State.reset = .ok [0x6B, 0x30, 0x30] 0 0 :=
  ⟨capOk_reset, by decide⟩

/-- R171 to R177: the largest number that fits each field, and the smallest that does not. -/
theorem witness_NumberTelegramsComplete :
    State.reset.sinkReady = true ∧ num (withNum 999 State.reset) = 10 ^ 3 - 1 ∧ 10 ^ 3 - 1 < num (withNum 1000 State.reset) ∧
      num (withNum 9999 State.reset) = 10 ^ 4 - 1 ∧ 10 ^ 4 - 1 < num (withNum 10000 State.reset) ∧
      num (withNum 99 State.reset) = 10 ^ 2 - 1 ∧ 10 ^ 2 - 1 < num (withNum 100 State.reset) ∧
      num (withNum 999999 State.reset) = 10 ^ 6 - 1 ∧ 10 ^ 6 - 1 < num (withNum 1000000 State.reset) ∧
      num (withNum 99999 State.reset) = 10 ^ 5 - 1 ∧ 10 ^ 5 - 1 < num (withNum 100000 State.reset) := by decide

theorem witness_NextvCompletes :
    (tlen (withLen .t0 257 State.reset) .t0 > textCap State.reset) ∧
    ((wsel (withArgf 3 0 hi)).toNat = 3 ∧ tlen (withArgf 3 0 hi) .t0 ≤ textCap hi) ∧
    ((wsel (withLen .t0 17 State.reset)).toNat = 0 ∧ tlen (withLen .t0 17 State.reset) .t0 > 16 ∧
      tlen (withLen .t0 17 State.reset) .t0 ≤ textCap State.reset) ∧
    ((wsel hi).toNat = 0 ∧ (wsel (withArgf 1 0 hi)).toNat = 1 ∧ (wsel (withArgf 2 1 hi)).toNat = 2 ∧
      tlen hi .t0 ≤ textCap hi ∧ hi.sinkReady = true) ∧ TextHolds hi .t0 [0x48, 0x69] ∧ ([0x48, 0x69] : Bytes).length ≤ 16 :=
  ⟨by decide, by decide, by decide, by decide, texts_hi, by decide⟩

theorem witness_DelayCompletes :
    num (withNum 999 State.reset) ≤ 999 ∧ State.reset.sinkReady = true ∧ (sgn State.reset).toNat = 0 ∧
      (sgn (withArgf 0 1 State.reset)).toNat = 1 ∧ 999 < num (withNum 1000 State.reset) := by decide

/-- For DESTTXT, NEXTSTOP, ADDRDEST and FRAMERAW: a text they send, and a length they refuse. -/
theorem witness_DesttxtCompletes :
    CapOk hi ∧ TextHolds hi .t0 [0x48, 0x69] ∧ ([0x48, 0x69] : Bytes).length ≤ textCap hi ∧ hi.sinkReady = true ∧
      (1 : Nat) = (([0x48, 0x69] : Bytes).length + 15) / 16 ∧ CapOk (withLen .t0 257 State.reset) ∧
      tlen (withLen .t0 257 State.reset) .t0 > textCap (withLen .t0 257 State.reset) :=
  ⟨⟨by decide, by decide⟩, texts_hi, by decide, by decide, by decide, ⟨by decide, by decide⟩, by decide⟩

theorem witness_NextstopCompletes :
    CapOk hi ∧ TextHolds hi .t0 [0x48, 0x69] ∧ ([0x48, 0x69] : Bytes).length ≤ textCap hi ∧ hi.sinkReady = true ∧
      (1 : Nat) = (([0x48, 0x69] : Bytes).length + 3) / 4 ∧ CapOk (withLen .t0 257 State.reset) ∧
      tlen (withLen .t0 257 State.reset) .t0 > textCap (withLen .t0 257 State.reset) :=
  ⟨⟨by decide, by decide⟩, texts_hi, by decide, by decide, by decide, ⟨by decide, by decide⟩, by decide⟩

theorem witness_AddrdestCompletes :
    CapOk hi ∧ TextHolds hi .t0 [0x48, 0x69] ∧ ([0x48, 0x69] : Bytes).length ≤ textCap hi ∧ hi.sinkReady = true ∧
      (1 : Nat) = (([0x48, 0x69] : Bytes).length + 3) / 4 ∧ CapOk (withLen .t0 0xFFFF State.reset) ∧
      tlen (withLen .t0 0xFFFF State.reset) .t0 > textCap (withLen .t0 0xFFFF State.reset) :=
  ⟨⟨by decide, by decide⟩, texts_hi, by decide, by decide, by decide, ⟨by decide, by decide⟩, by decide⟩

theorem witness_LineprogCompletes :
    CapOk markt ∧ TextHolds markt .t0 [0x31, 0x32] ∧ TextHolds markt .t1 [0x4D, 0x61, 0x72, 0x6B, 0x74] ∧
      TextHolds markt .t2 [] ∧ 5 ≤ textCap markt ∧ 10 = 3 + 2 + 5 + 0 ∧ markt.sinkReady = true ∧
      CapOk (withLen .t2 257 State.reset) ∧ ∃ k, tlen (withLen .t2 257 State.reset) k > textCap (withLen .t2 257 State.reset) :=
  ⟨⟨by decide, by decide⟩, texts_markt.1, texts_markt.2.1, texts_markt.2.2, by decide, by decide, by decide,
    ⟨by decide, by decide⟩, .t2, by decide⟩

/-- SCREEN with an empty second line, with a second line, and with one too long. -/
theorem witness_ScreenCompletes :
    (CapOk hi ∧ TextHolds hi .t0 [0x48, 0x69] ∧ TextHolds hi .t1 [] ∧ hi.sinkReady = true) ∧
    (CapOk markt ∧ TextHolds markt .t0 [0x31, 0x32] ∧ TextHolds markt .t1 [0x4D, 0x61, 0x72, 0x6B, 0x74] ∧
      ([0x4D, 0x61, 0x72, 0x6B, 0x74] : Bytes) ≠ [] ∧ markt.sinkReady = true) ∧ CapOk (withLen .t1 257 State.reset) ∧
    tlen (withLen .t1 257 State.reset) .t1 > textCap (withLen .t1 257 State.reset) :=
  ⟨⟨⟨by decide, by decide⟩, texts_hi, ⟨by decide, by decide⟩, by decide⟩,
    ⟨⟨by decide, by decide⟩, texts_markt.1, texts_markt.2.1, by decide, by decide⟩, ⟨by decide, by decide⟩, by decide⟩

theorem witness_FramerawCompletes :
    CapOk State.reset ∧ TextHolds State.reset .t0 [] ∧ ([] : Bytes).length ≤ textCap State.reset ∧
      State.reset.sinkReady = true ∧ CapOk (withLen .t0 257 State.reset) ∧
      tlen (withLen .t0 257 State.reset) .t0 > textCap (withLen .t0 257 State.reset) :=
  ⟨capOk_reset, ⟨by decide, by decide⟩, by decide, by decide, ⟨by decide, by decide⟩, by decide⟩

/-- R129 for LINEPROG with one unwritten byte, and for NEXTV with its width condition. -/
theorem witness_UnwrittenTextFaults :
    (readsText .lineprog .t2 = true ∧ TextUnwritten (withLen .t2 1 markt) .t2 ∧ markt.sinkReady = true ∧
      ∀ k, tlen (withLen .t2 1 markt) k ≤ textCap (withLen .t2 1 markt)) ∧
    readsText .nextv .t0 = true ∧ TextUnwritten (withLen .t0 16 State.reset) .t0 ∧
      widthOf (wsel (withLen .t0 16 State.reset)) = some 16 ∧ tlen (withLen .t0 16 State.reset) .t0 ≤ 16 :=
  ⟨⟨by decide, ⟨0, by decide, by decide⟩, by decide, fun k => by cases k <;> decide⟩, by decide,
    ⟨0, by decide, by decide⟩, by decide, by decide⟩

theorem witness_TlenIsCheckedFirst :
    readsText .screen .t1 = true ∧
      tlen (withLen .t1 300 (issue 0x0E State.reset)) .t1 > textCap (withLen .t1 300 (issue 0x0E State.reset)) ∧
      (withLen .t1 300 (issue 0x0E State.reset)).status.busy = true := by decide

/-- VE6: two states that differ in operands LINE does not read. -/
theorem witness_CommandsReadOnlyTheirOperands :
    SameOperands .line (withNum 5 State.reset) (withArgf 3 1 (withLen .t0 0xFFFF (withNum 5 State.reset))) :=
  ⟨rfl, by simp [readsAddr], fun _ => rfl, by simp, by simp, by simp [readsText]⟩

theorem witness_SinkStallHoldsTheCompletion :
    (payload .line busyLine).isError = false ∧ { busyLine with sinkReady := false }.sinkReady = false ∧
      payload .line (withNum 1000 busyLine) = .error .numOvf ∧
      ({ busyLine with sinkReady := false, turns := [.engine] }.status.busy = true ∧
        (payloadOfCmd { busyLine with sinkReady := false, turns := [.engine] }).isError = false ∧
        (nextTurn { busyLine with sinkReady := false, turns := [.engine] }).1 = .engine ∧
        (after (step { busyLine with sinkReady := false, turns := [.engine] })).isSome = true) := by decide

theorem witness_OperandsStableWhileBusy :
    busyLine.status.busy = true ∧ (nextTurn busyLine).1 = .engine ∧ (after (step busyLine)).isSome = true ∧
      (nextTurn { busyLine with turns := [.host] }).1 = .host ∧
      (after (step { busyLine with turns := [.host] })).isSome = true := by decide

theorem witness_OutputOnlyGrows :
    frames (step busyLine) = some [[0x6C, 0x30, 0x30, 0x30, 0x0D, 0x2E]] ∧ frames (step State.reset) = some [] ∧
      frames (step { busyLine with turns := [.reset 2] }) = some [[0x6C, 0x30]] := by decide

/-- The hypotheses of each kept property, met by a busy state whose completion is its next step. -/
theorem witness_StepKeepsTheInvariant :
    CapOk busyLine ∧ busyLine.mem.wf ∧ MemMapped busyLine ∧ StatusLegal busyLine.status ∧ ResultsMatch busyLine ∧
      HistoryLegal busyLine.out ∧ (after (step busyLine)).isSome = true := by
  refine ⟨capOk_busyLine, List.Pairwise.nil, ?_, ?_, ⟨fun _ => rfl, ?_, ?_, ?_⟩, ?_, by decide⟩
  · intro c hc
    cases hc
  · exact ⟨by decide, by decide, by decide⟩
  · intro h
    exact absurd h (by decide)
  · intro h
    exact absurd h (by decide)
  · intro h
    exact absurd h (by decide)
  · intro e he
    cases he

end Sys2Proof.Tests
end

section
/-! PROOFS. How long a payload can be: what every successful command leaves room for in FBUF (R131). -/

namespace Sys2Proof.Machine

/-! ## Sizes of payloads and frames -/

/-- A text of legal length is at most TEXT_CAP bytes long. -/
theorem TextHolds.length_le {s : State} {k : TextIdx} {t : Bytes} (ht : TextHolds s k t)
    (hl : tlen s k ≤ textCap s) : t.length ≤ textCap s := ht.1 ▸ hl

/-- A command that checks and reads one text succeeds on a text of legal length. -/
theorem checkedText_ok {s : State} {k : TextIdx} {f : Bytes → Built} {p : Bytes} {nb rem : Nat}
    (h : checkLen s k (withText s k f) = .ok p nb rem) : ∃ t, t.length ≤ textCap s ∧ f t = .ok p nb rem := by
  obtain ⟨hl, h⟩ := checkLen_ok h
  obtain ⟨t, ht, h⟩ := withText_ok h
  exact ⟨t, ht.length_le hl, h⟩

theorem numberField_length {s : State} {head p : Bytes} {W nb rem : Nat}
    (h : numberField s head W = .ok p nb rem) : p.length = head.length + W := by
  obtain ⟨_, rfl, _, _⟩ := numberField_ok h
  simp

theorem widthOf_le {w : BitVec 2} {W : Nat} (h : widthOf w = some W) : W ≤ 24 := by
  unfold widthOf at h
  split at h <;> cases h <;> decide

theorem payloadNextv_length_le {s : State} {p : Bytes} {nb rem : Nat} (h : payloadNextv s = .ok p nb rem) :
    p.length ≤ 25 := by
  obtain ⟨_, h⟩ := checkLen_ok h
  split at h
  · cases h
  · next W hW =>
    split at h
    · cases h
    · obtain ⟨t, ht, h⟩ := withText_ok h
      cases h
      have hlen := ht.1
      have hW := widthOf_le hW
      simp only [List.length_append, List.length_singleton, ljust_length]
      omega

theorem payloadDesttxt_length_le {s : State} {p : Bytes} {nb rem : Nat} (h : payloadDesttxt s = .ok p nb rem) :
    p.length ≤ textCap s + 19 := by
  obtain ⟨t, hlen, h⟩ := checkedText_ok h
  cases h
  have hhex := hex_length_le (countByte (nblocks t 16))
  have hpad := nblocks_bounds t (b := 16) (by decide)
  simp only [pad, List.length_append, List.length_cons, List.length_nil, padtext_length t (b := 16) (by decide)]
  omega

theorem payloadNextstop_length_le {s : State} {p : Bytes} {nb rem : Nat} (h : payloadNextstop s = .ok p nb rem) :
    p.length ≤ textCap s + 7 := by
  obtain ⟨t, hlen, h⟩ := checkedText_ok h
  cases h
  have hhex := hex_length_le (countByte (nblocks t 4))
  have hpad := nblocks_bounds t (b := 4) (by decide)
  simp only [pad, List.length_append, List.length_cons, List.length_nil, padtext_length t (b := 4) (by decide)]
  omega

theorem payloadAddrdest_length_le {s : State} {p : Bytes} {nb rem : Nat} (h : payloadAddrdest s = .ok p nb rem) :
    p.length ≤ textCap s + 6 := by
  obtain ⟨t, hlen, h⟩ := checkedText_ok h
  cases h
  have haddr := hex_length_le s.addr
  have hhex := hex_length_le (countByte (nblocks t 4))
  simp only [List.length_append, List.length_cons, List.length_nil, List.length_take]
  omega

theorem payloadLineprog_length_le {s : State} {p : Bytes} {nb rem : Nat} (h : payloadLineprog s = .ok p nb rem) :
    p.length ≤ 3 * textCap s + 11 := by
  obtain ⟨hl0, h⟩ := checkLen_ok h
  obtain ⟨hl1, h⟩ := checkLen_ok h
  obtain ⟨hl2, h⟩ := checkLen_ok h
  obtain ⟨t0, ht0, h⟩ := withText_ok h
  obtain ⟨t1, ht1, h⟩ := withText_ok h
  obtain ⟨t2, ht2, h⟩ := withText_ok h
  cases h
  have hlen0 := ht0.length_le hl0
  have hlen1 := ht1.length_le hl1
  have hlen2 := ht2.length_le hl2
  have haddr := hex_length_le s.addr
  have hcount := hex_length_le (countByte (ceilDiv (lineprogRecord t0 t1 t2).length 16))
  have hrem := hex_length_le (countByte ((lineprogRecord t0 t1 t2).length % 16))
  simp only [List.length_append, List.length_cons, List.length_nil]
  have hrec := lineprogRecord_length t0 t1 t2
  omega

theorem payloadScreen_length_le {s : State} {p : Bytes} {nb rem : Nat} (h : payloadScreen s = .ok p nb rem) :
    p.length ≤ 2 * textCap s + 24 := by
  obtain ⟨hl0, h⟩ := checkLen_ok h
  obtain ⟨hl1, h⟩ := checkLen_ok h
  obtain ⟨t0, ht0, h⟩ := withText_ok h
  obtain ⟨t1, ht1, h⟩ := withText_ok h
  cases h
  have hlen0 := ht0.length_le hl0
  have hlen1 := ht1.length_le hl1
  have haddr := hex_length_le s.addr
  have hcount := hex_length_le (countByte (nblocks (screenText t0 t1) 16))
  have hpad := nblocks_bounds (screenText t0 t1) (b := 16) (by decide)
  have htext : (screenText t0 t1).length ≤ t0.length + t1.length + 3 := by
    rw [screenText_length]
    split <;> omega
  simp only [pad, List.length_append, List.length_cons, List.length_nil,
    padtext_length (screenText t0 t1) (b := 16) (by decide)]
  omega

theorem payloadFrameraw_length_le {s : State} {p : Bytes} {nb rem : Nat} (h : payloadFrameraw s = .ok p nb rem) :
    p.length ≤ textCap s := by
  obtain ⟨t, hlen, h⟩ := checkedText_ok h
  cases h
  exact hlen

/-- R131: the general bound of a payload, for every command and every value of TEXT_CAP. -/
theorem payload_length_le {i : Instr} {s : State} {p : Bytes} {nb rem : Nat} (h : payload i s = .ok p nb rem) :
    p.length ≤ 3 * textCap s + 30 := by
  cases i with
  | line | linex | course | destid | ticket | time | date | delay =>
    have := numberField_length h
    simp only [List.length_cons, List.length_nil] at this
    omega
  | nextv => have := payloadNextv_length_le h; omega
  | desttxt => have := payloadDesttxt_length_le h; omega
  | nextstop => have := payloadNextstop_length_le h; omega
  | addrdest => have := payloadAddrdest_length_le h; omega
  | lineprog => have := payloadLineprog_length_le h; omega
  | screen => have := payloadScreen_length_le h; omega
  | frameraw => have := payloadFrameraw_length_le h; omega

/-- A pending command that succeeds has a legal code, and its payload is that command's. -/
theorem payloadOfCmd_ok {s : State} {p : Bytes} {nb rem : Nat} (h : payloadOfCmd s = .ok p nb rem) :
    ∃ i, decode s.cmd = .ok i ∧ payload i s = .ok p nb rem := by
  unfold payloadOfCmd at h
  split at h
  · next i hi => exact ⟨i, hi, h⟩
  · cases h

/-- R131: the frame of the pending command fits FBUF. -/
theorem frame_length_le_frameCap {s : State} {p : Bytes} {nb rem : Nat} (h : payloadOfCmd s = .ok p nb rem) :
    (frame p).length ≤ frameCap (textCap s) := by
  obtain ⟨i, _, hi⟩ := payloadOfCmd_ok h
  have := payload_length_le hi
  rw [frame_length, frameCap]
  omega

/-! ## What a frame ends in -/

/-- R230 step 4: the last byte of a frame is its checksum. -/
theorem frame_getLast? (p : Bytes) : (frame p).getLast? = some (checksum p) := by simp [frame]

/-- R233, R234: a frame ends in the terminator and the checksum. -/
theorem frame_eq_append (p : Bytes) : frame p = remap p ++ [0x0D, checksum p] := by
  simp [frame, terminated, chCR]

/-- R235: every frame passes the self-check. -/
theorem frame_selfChecks (p : Bytes) : SelfChecks (frame p) := by
  show accFold checksumSeed (terminated p ++ [checksum p]) = 0
  rw [accFold_append, accFold_cons, accFold_nil]
  exact BitVec.xor_self

end Sys2Proof.Machine
end

section
/-! PROOFS. What every step keeps: the one inversion of a step with the list of turns taken out of sight, and each part
of the machine's invariant derived from it. -/

namespace Sys2Proof.Machine

/-! ## The list of turns -/

theorem fillText_of_gt {k : TextIdx} {s : State} (d : Nat) (h : tlen s k > textCap s) : fillText k d s = s := if_pos h

theorem fillText_of_le {k : TextIdx} {s : State} (d : Nat) (h : ¬tlen s k > textCap s) :
    fillText k d s = { s with mem := memFill s.mem (tbufBase k) (tlen s k) d } := if_neg h

/-- A fill does not read the list of turns. -/
theorem fillText_withTurns (k : TextIdx) (d : Nat) (s : State) (ts : List Turn) :
    fillText k d { s with turns := ts } = { fillText k d s with turns := ts } := by
  by_cases h : tlen s k > textCap s
  · rw [fillText_of_gt d h]
    exact fillText_of_gt d h
  · rw [fillText_of_le d h]
    exact fillText_of_le d h

theorem filledTexts_withTurns (s : State) (ts : List Turn) :
    filledTexts { s with turns := ts } = { filledTexts s with turns := ts } := by
  simp only [filledTexts, textCap, fillText_withTurns]

/-- R282: what a reset adds to OUT does not depend on the list of turns. -/
theorem cutFrame_withTurns (n : Nat) (s : State) (ts : List Turn) :
    cutFrame n { s with turns := ts } = cutFrame n s := by
  have hpayload : payloadOfCmd (filledTexts { s with turns := ts }) = payloadOfCmd (filledTexts s) := by
    rw [filledTexts_withTurns]
    rfl
  unfold cutFrame
  rw [hpayload]

theorem resetBlock_withTurns (n : Nat) (s : State) (ts : List Turn) :
    resetBlock n { s with turns := ts } = { resetBlock n s with turns := ts } := by
  unfold resetBlock
  rw [cutFrame_withTurns]
  rfl

/-! ## A property of the block through one step -/

/-- Two states whose block holds the same command, flags, results, buffers, output and TEXT_CAP; the operands, the sink,
the host, the turns and the count of draws may differ. -/
def SameBlock (u v : State) : Prop :=
  u.cmd = v.cmd ∧ u.status = v.status ∧ u.errcode = v.errcode ∧ u.nblk = v.nblk ∧ u.rem = v.rem ∧ u.flen = v.flen ∧
    u.csum = v.csum ∧ u.mem = v.mem ∧ u.out = v.out ∧ u.tcap = v.tcap ∧ u.acc = v.acc

/-- A property of the block that WIGN, a command issue, a write of a TBUF byte, either completion of the pending command
and a reset keep is kept by every step. -/
theorem step_keeps {s t : State} {P : State → Prop} (hstep : step s = .next t)
    (ext : ∀ u v, SameBlock u v → P u → P v)
    (init : P s)
    (wign : ∀ w, P { s with status := { s.status with wign := w } })
    (issued : ∀ v, s.status.busy = false → P (issue v s))
    (stored : ∀ k a v, inTbuf (textCap s) k a = true → P { s with mem := memStore s.mem a [v] })
    (failed : ∀ e, s.status.busy = true → P (errorCompletion e s))
    (succeeded : ∀ p nb rem, s.status.busy = true → payloadOfCmd s = .ok p nb rem → P (successCompletion p nb rem s))
    (wasReset : ∀ n, P (resetBlock n s)) : P t := by
  have turns {u : State} (ts : List Turn) (h : P u) : P { u with turns := ts } :=
    ext u _ ⟨rfl, rfl, rfl, rfl, rfl, rfl, rfl, rfl, rfl, rfl, rfl⟩ h
  obtain ⟨ts, ⟨_, rfl⟩ | ⟨_, _, rfl⟩ | ⟨_, hb, hc⟩ | ⟨b, _, rfl⟩ | ⟨n, _, rfl⟩⟩ := step_next hstep
  · exact hostStep_keeps
      (fun u v h1 h2 h3 h4 h5 h6 h7 h8 h9 h10 h11 => ext u v ⟨h1, h2, h3, h4, h5, h6, h7, h8, h9, h10, h11⟩)
      (turns ts init) (fun w => turns ts (wign w)) (fun v hb => turns ts (issued v hb))
      (fun k a v _ hk => turns ts (stored k a v hk))
  · exact turns ts init
  · obtain ⟨e, _, rfl⟩ | ⟨p, nb, rem, hp, _, rfl⟩ | ⟨_, _, rfl⟩ := complete_next hc
    · exact turns ts (failed e hb)
    · exact turns ts (succeeded p nb rem hb hp)
    · exact turns ts init
  · exact ext s _ ⟨rfl, rfl, rfl, rfl, rfl, rfl, rfl, rfl, rfl, rfl, rfl⟩ init
  · rw [resetBlock_withTurns]
    exact turns ts (wasReset n)

/-! ## TCAP -/

/-- R34: no step changes TCAP. -/
theorem step_tcap {s t : State} (h : step s = .next t) : t.tcap = s.tcap :=
  step_keeps (P := fun u => u.tcap = s.tcap) h
    (ext := fun _ _ ⟨_, _, _, _, _, _, _, _, _, htcap, _⟩ hu => htcap ▸ hu)
    (init := rfl) (wign := fun _ => rfl) (issued := fun _ _ => rfl) (stored := fun _ _ _ _ => rfl)
    (failed := fun _ _ => rfl) (succeeded := fun _ _ _ _ _ => rfl) (wasReset := fun _ => rfl)

theorem step_textCap {s t : State} (h : step s = .next t) : textCap t = textCap s := by
  rw [textCap, textCap, step_tcap h]

/-! ## The flags -/

theorem statusLegal_wign {st : Status} (h : StatusLegal st) (w : Bool) : StatusLegal { st with wign := w } := h

theorem statusLegal_statusIssued (st : Status) : StatusLegal (statusIssued st) := by
  simp [StatusLegal]

theorem statusLegal_statusSucceeded (st : Status) (hb : Bool) : StatusLegal (statusSucceeded st hb) := by
  simp [StatusLegal]

/-- An error completion leaves HIBIT, which is 0 while BUSY = 1. -/
theorem statusLegal_statusFailed {st : Status} (h : StatusLegal st) (hb : st.busy = true) :
    StatusLegal (statusFailed st) := by
  obtain ⟨hbusy, _, _⟩ := h
  obtain ⟨_, _, hhibit⟩ := hbusy hb
  simp [StatusLegal, hhibit]

theorem statusLegal_resetBlock (n : Nat) (s : State) : StatusLegal (resetBlock n s).status := by
  simp [StatusLegal]

/-- Settles O55: each operation that writes a flag leaves a legal combination. -/
theorem stepKeepsStatusLegal : Obligations.StepKeepsStatusLegal := by
  intro s t hlegal hstep
  exact step_keeps (P := fun u => StatusLegal u.status) hstep
    (ext := fun _ _ ⟨_, hstatus, _⟩ hu => hstatus ▸ hu)
    (init := hlegal)
    (wign := statusLegal_wign hlegal)
    (issued := fun _ _ => statusLegal_statusIssued s.status)
    (stored := fun _ _ _ _ => hlegal)
    (failed := fun _ => statusLegal_statusFailed hlegal)
    (succeeded := fun p _ _ _ _ => statusLegal_statusSucceeded s.status (hibit (remap p)))
    (wasReset := fun n => statusLegal_resetBlock n s)

/-! ## The result registers and FBUF -/

theorem resultsMatch_of_sameBlock {u v : State} (h : SameBlock u v) (hu : ResultsMatch u) : ResultsMatch v := by
  obtain ⟨_, hstatus, herrcode, hnblk, hrem, hflen, hcsum, hmem, hout, htcap, _⟩ := h
  simpa only [ResultsMatch, FbufHolds, textCap, hstatus, herrcode, hnblk, hrem, hflen, hcsum, hmem, hout, htcap] using hu

/-- R71, R72: a TBUF byte lies below FBUF, so a write of it leaves FBUF as it is. -/
theorem memLookup_fbuf_memStore_tbuf {m : Memory} {cap a x : Nat} {k : TextIdx} {v : Byte} (hcap : cap ≤ 0x400)
    (hk : inTbuf cap k a = true) (hx : fbufBase ≤ x) : memLookup (memStore m a [v]) x = memLookup m x := by
  have ha := inTbuf_iff.mp hk
  rw [memLookup_memStore, if_neg]
  cases k <;> simp only [tbufBase, fbufBase, List.length_singleton] at * <;> omega

theorem fbufHolds_tbuf_write {s : State} {k : TextIdx} {a : Nat} {v : Byte} {f : Bytes} (hcap : CapOk s)
    (hk : inTbuf (textCap s) k a = true) :
    FbufHolds { s with mem := memStore s.mem a [v] } f ↔ FbufHolds s f := by
  have hlookup (j : Nat) : memLookup (memStore s.mem a [v]) (fbufBase + j) = memLookup s.mem (fbufBase + j) :=
    memLookup_fbuf_memStore_tbuf (hcap.2.trans (by decide)) hk (by omega)
  simp only [FbufHolds, textCap, hlookup]

theorem resultsMatch_tbuf_write {s : State} {k : TextIdx} {a : Nat} {v : Byte} (hcap : CapOk s)
    (hk : inTbuf (textCap s) k a = true) (h : ResultsMatch s) :
    ResultsMatch { s with mem := memStore s.mem a [v] } := by
  simpa only [ResultsMatch, fbufHolds_tbuf_write hcap hk, textCap] using h

theorem resultsMatch_issue (v : Byte) (s : State) : ResultsMatch (issue v s) := by
  simp [ResultsMatch]

/-- R251: an error code is 1 to 5. -/
theorem errByte_range (e : ErrCode) : 1 ≤ (errByte e).toNat ∧ (errByte e).toNat ≤ 5 := by
  cases e <;> decide

theorem resultsMatch_errorCompletion (e : ErrCode) (s : State) : ResultsMatch (errorCompletion e s) := by
  obtain ⟨hlo, hhi⟩ := errByte_range e
  simp [ResultsMatch, hlo, hhi, fbufHolds_errorCompletion]

/-- R126: after a success the results describe the frame that was handed over. -/
theorem resultsMatch_successCompletion {s : State} {p : Bytes} {nb rem : Nat} (hcap : CapOk s)
    (hp : payloadOfCmd s = .ok p nb rem) : ResultsMatch (successCompletion p nb rem s) := by
  have hfit := frame_length_le_frameCap hp
  have hflen : (BitVec.ofNat 16 (frame p).length).toNat = (frame p).length := by
    have := hcap.2
    rw [frameCap] at hfit
    rw [BitVec.toNat_ofNat, Nat.mod_eq_of_lt (by omega)]
  have hlast : (emit (frame p) s.out).getLast? = some { bytes := frame p, truncated := false } := List.getLast?_concat
  have htwo : 2 ≤ (frame p).length := by rw [frame_length]; omega
  exact ⟨nofun, fun _ => nofun, fun _ _ => nofun, fun _ _ _ =>
    ⟨rfl, frame p, hlast, hflen, htwo, hfit, frame_getLast? p, fbufHolds_successCompletion p nb rem s⟩⟩

/-- R41: a block with its flags and results cleared and no byte of memory holding a value. -/
theorem resultsMatch_cleared {s : State} (hbusy : s.status.busy = false) (hdone : s.status.done = false)
    (herrcode : s.errcode = 0x00) (hflen : s.flen = 0) (hcsum : s.csum = 0x00) (hnblk : s.nblk = 0x00)
    (hrem : s.rem = 0x00) (hmem : s.mem = []) : ResultsMatch s := by
  simp [ResultsMatch, FbufHolds, hbusy, hdone, herrcode, hflen, hcsum, hnblk, hrem, hmem]

/-- Settles O56: each operation that writes a result register, FBUF or OUT writes what the flags say. -/
theorem stepKeepsResultsMatched : Obligations.StepKeepsResultsMatched := by
  intro s t hcap _ hresults hstep
  exact step_keeps (P := ResultsMatch) hstep
    (ext := fun _ _ => resultsMatch_of_sameBlock)
    (init := hresults)
    (wign := fun _ => hresults)
    (issued := fun v _ => resultsMatch_issue v s)
    (stored := fun _ _ _ hk => resultsMatch_tbuf_write hcap hk hresults)
    (failed := fun e _ => resultsMatch_errorCompletion e s)
    (succeeded := fun _ _ _ _ => resultsMatch_successCompletion hcap)
    (wasReset := fun _ => resultsMatch_cleared rfl rfl rfl rfl rfl rfl rfl rfl)

/-! ## Memory -/

/-- Every step keeps the memory in its canonical form. -/
theorem step_keeps_memory_wf {s t : State} (hwf : s.mem.wf) (hstep : step s = .next t) : t.mem.wf :=
  step_keeps (P := fun u => u.mem.wf) hstep
    (ext := fun _ _ ⟨_, _, _, _, _, _, _, hmem, _⟩ hu => hmem ▸ hu)
    (init := hwf)
    (wign := fun _ => hwf)
    (issued := fun _ _ => hwf)
    (stored := fun _ a v _ => memStore_wf a [v] hwf)
    (failed := fun _ _ => memClear_wf _ _ hwf)
    (succeeded := fun _ _ _ _ _ => memStore_wf _ _ (memClear_wf _ _ hwf))
    (wasReset := fun _ => List.Pairwise.nil)

theorem memMapped_tbuf_write {s : State} {k : TextIdx} {a : Nat} {v : Byte} (h : MemMapped s)
    (hk : inTbuf (textCap s) k a = true) : MemMapped { s with mem := memStore s.mem a [v] } := by
  intro c hc
  rcases mem_memStore hc with hc | ⟨hlo, hhi⟩
  · exact h c hc
  · have : c.1 = a := by rw [List.length_singleton] at hhi; omega
    exact .inl ⟨k, this ▸ hk⟩

theorem memMapped_errorCompletion {s : State} (e : ErrCode) (h : MemMapped s) : MemMapped (errorCompletion e s) :=
  fun c hc => h c (mem_memClear hc).1

theorem memMapped_successCompletion {s : State} {p : Bytes} {nb rem : Nat} (h : MemMapped s)
    (hp : payloadOfCmd s = .ok p nb rem) : MemMapped (successCompletion p nb rem s) := by
  intro c hc
  rcases mem_memStore hc with hc | ⟨hlo, hhi⟩
  · exact h c (mem_memClear hc).1
  · have hfit := frame_length_le_frameCap hp
    exact .inr (inFbuf_iff.mpr ⟨hlo, hhi.trans_le (Nat.add_le_add_left hfit _)⟩)

/-- R62: every step keeps every byte that holds a value in a TBUF or FBUF window. -/
theorem step_keeps_memMapped {s t : State} (hmapped : MemMapped s) (hstep : step s = .next t) : MemMapped t :=
  step_keeps (P := MemMapped) hstep
    (ext := fun _ _ ⟨_, _, _, _, _, _, _, hmem, _, htcap, _⟩ hu => by
      simpa only [MemMapped, textCap, hmem, htcap] using hu)
    (init := hmapped)
    (wign := fun _ => hmapped)
    (issued := fun _ _ => hmapped)
    (stored := fun _ _ _ hk => memMapped_tbuf_write hmapped hk)
    (failed := fun e _ => memMapped_errorCompletion e hmapped)
    (succeeded := fun _ _ _ _ => memMapped_successCompletion hmapped)
    (wasReset := fun _ _ hc => by cases hc)

/-! ## The output history -/

theorem historyLegal_append {out new : List Emission} (hout : HistoryLegal out) (hnew : HistoryLegal new) :
    HistoryLegal (out ++ new) :=
  fun e he => (List.mem_append.mp he).elim (hout e) (hnew e)

/-- R230, R235: a whole frame is a legal entry. -/
theorem historyLegal_frame (p : Bytes) : HistoryLegal [{ bytes := frame p, truncated := false }] := by
  intro e he
  obtain rfl := List.mem_singleton.mp he
  refine ⟨fun _ => ⟨⟨remap p, checksum p, frame_eq_append p⟩, frame_selfChecks p⟩, fun h => ?_⟩
  cases h

/-- R282: what a reset adds to OUT is a truncated entry of at least one byte, or nothing. -/
theorem historyLegal_cutFrame (n : Nat) (s : State) : HistoryLegal (cutFrame n s) := by
  have hnil : HistoryLegal [] := fun e he => by cases he
  unfold cutFrame
  split
  · split
    · next p _ _ _ =>
      split
      · exact hnil
      · next hn =>
        intro e he
        obtain rfl := List.mem_singleton.mp he
        refine ⟨fun h => ?_, fun _ => ?_⟩
        · cases h
        · simpa [hn] using List.ne_nil_of_length_pos (l := frame p) (by simp)
    · exact hnil
    · exact hnil
  · exact hnil

/-- R127, R235, R282: every step keeps the output history legal. -/
theorem step_keeps_historyLegal {s t : State} (hhistory : HistoryLegal s.out) (hstep : step s = .next t) :
    HistoryLegal t.out :=
  step_keeps (P := fun u => HistoryLegal u.out) hstep
    (ext := fun _ _ ⟨_, _, _, _, _, _, _, _, hout, _, _⟩ hu => hout ▸ hu)
    (init := hhistory)
    (wign := fun _ => hhistory)
    (issued := fun _ _ => hhistory)
    (stored := fun _ _ _ _ => hhistory)
    (failed := fun _ _ => hhistory)
    (succeeded := fun p _ _ _ _ => historyLegal_append hhistory (historyLegal_frame p))
    (wasReset := fun n => historyLegal_append hhistory (historyLegal_cutFrame n s))

/-! ## The invariant -/

/-- Settles O59: every part of the invariant is kept, from the parts it needs. -/
theorem stepKeepsTheInvariant : Obligations.StepKeepsTheInvariant := by
  intro s t ⟨hcap, hwf, hmapped, hstatus, hresults, hhistory⟩ hstep
  exact {
    cap := by rw [CapOk, step_textCap hstep]; exact hcap
    canonical := step_keeps_memory_wf hwf hstep
    mapped := step_keeps_memMapped hmapped hstep
    status := stepKeepsStatusLegal s t hstatus hstep
    results := stepKeepsResultsMatched s t hcap hstatus hresults hstep
    history := step_keeps_historyLegal hhistory hstep }

/-- R41: a block built with any legal TEXT_CAP meets the invariant at power-on. -/
theorem machineInv_resetWith {cap : Half} (hlo : 16 ≤ cap.toNat) (hhi : cap.toNat ≤ 1020) :
    MachineInv (State.resetWith cap) where
  cap := ⟨hlo, hhi⟩
  canonical := List.Pairwise.nil
  mapped := fun _ hc => by cases hc
  status := by simp [StatusLegal, State.resetWith]
  results := resultsMatch_cleared rfl rfl rfl rfl rfl rfl rfl rfl
  history := fun _ he => by cases he

/-- Settles O58: the reference TEXT_CAP is in range. -/
theorem resetMeetsTheInvariant : Obligations.ResetMeetsTheInvariant :=
  machineInv_resetWith (cap := Config.textCapReference) (by decide) (by decide)

end Sys2Proof.Machine
end

section
/-! PROOFS. The registers as the host reads and writes them (R23 to R34, R40), the reset values of R41, and whose turn a
step takes (R20, R123). -/

namespace Sys2Proof.Machine

/-! ## Reads and writes at a register's address -/

/-- R62: a read at a register's address answers the register's readable value and changes nothing. -/
theorem busRead_register {a : Addr} {s : State} {l : Loc} {v : Byte} (ha : registerAt a.toNat = some l)
    (hv : readable s l = some v) : busRead a s = (v, s) :=
  busRead_of_readable (locate_register ha) hv

/-- R62: a write at a register's address while BUSY = 0 is the store to that register. -/
theorem busWrite_register {a : Addr} {v : Byte} {s : State} {l : Loc} (ha : registerAt a.toNat = some l)
    (hb : s.status.busy = false) : busWrite a v s = writeLoc v s l :=
  busWrite_idle (locate_register ha) hb

/-- R121: a write at the address of a register outside the busy lock is that store whatever BUSY is. -/
theorem busWrite_register_unlocked {a : Addr} {v : Byte} {s : State} {l : Loc} (ha : registerAt a.toNat = some l)
    (hl : busyLocked l = false) : busWrite a v s = writeLoc v s l :=
  busWrite_unlocked (locate_register ha) hl

/-- A register that holds what was written: the write is the update `t`, and reading the address again answers `w`. -/
theorem register_readBack {a : Addr} {v w : Byte} {s t : State} {l : Loc} (ha : registerAt a.toNat = some l)
    (hb : s.status.busy = false) (ht : writeLoc v s l = t) (hw : readable t l = some w) :
    busWrite a v s = t ∧ busRead a (busWrite a v s) = (w, busWrite a v s) := by
  have hwrite : busWrite a v s = t := (busWrite_register ha hb).trans ht
  rw [hwrite]
  exact ⟨rfl, busRead_register ha hw⟩

/-- R122: a result location reads as the register while BUSY = 0. -/
theorem readable_result {s : State} (hb : s.status.busy = false) :
    readable s .errcode = some s.errcode ∧ readable s .nblk = some s.nblk ∧ readable s .rem = some s.rem ∧
      readable s .flenLo = some (s.flen.extractLsb' 0 8) ∧ readable s .flenHi = some (s.flen.extractLsb' 8 8) ∧
      readable s .csum = some s.csum := by
  simp [readable, hb]

/-- R26: TLENk_LO reads as the low byte of TLENk. -/
theorem readable_tlenLo (s : State) (k : TextIdx) :
    readable s (.tlenLo k) = some (match k with | .t0 => s.tlen0Lo | .t1 => s.tlen1Lo | .t2 => s.tlen2Lo) := by
  cases k <;> exact congrArg some (extractLsb'_append_low _ _)

/-- R26: TLENk_HI reads as the high byte of TLENk. -/
theorem readable_tlenHi (s : State) (k : TextIdx) :
    readable s (.tlenHi k) = some (match k with | .t0 => s.tlen0Hi | .t1 => s.tlen1Hi | .t2 => s.tlen2Hi) := by
  cases k <;> exact congrArg some (extractLsb'_append_high _ _)

/-- Settles O25: TCAP is outside the busy lock, a write to it stores nothing, and no step changes it. -/
theorem tcapIsHardwired : Obligations.TcapIsHardwired := fun _ =>
  ⟨busRead_register (l := .tcapLo) rfl rfl, busRead_register (l := .tcapHi) rfl rfl,
    fun _ => ⟨busWrite_register_unlocked (l := .tcapLo) rfl rfl, busWrite_register_unlocked (l := .tcapHi) rfl rfl⟩,
    fun _ => step_tcap⟩

/-! ## Operand registers -/

/-- R64: the low `n` bits of a byte that are held, as the byte the host reads. -/
theorem setWidth_extractLsb'_low (v : Byte) {n : Nat} (hn : n ≤ 8) :
    (v.extractLsb' 0 n).setWidth 8 = v &&& BitVec.ofNat 8 (2 ^ n - 1) := by
  have hpow : 2 ^ n ≤ 2 ^ 8 := Nat.pow_le_pow_right (by decide) hn
  have hmod : v.toNat % 2 ^ n < 2 ^ n := Nat.mod_lt _ (Nat.two_pow_pos n)
  apply BitVec.eq_of_toNat_eq
  rw [BitVec.toNat_setWidth, BitVec.extractLsb'_toNat, Nat.shiftRight_zero, BitVec.toNat_and, BitVec.toNat_ofNat,
    Nat.mod_eq_of_lt (hmod.trans_le hpow), Nat.mod_eq_of_lt (show 2 ^ n - 1 < 2 ^ 8 by omega),
    Nat.and_two_pow_sub_one_eq_mod]

/-- Settles O13: each operand address names its register, whose readable value is the byte stored. -/
theorem operandRegistersReadBack : Obligations.OperandRegistersReadBack := by
  intro s v hb
  exact ⟨register_readBack (l := .addr) rfl hb rfl rfl,
    register_readBack (l := .argf) rfl hb rfl (congrArg some (setWidth_extractLsb'_low v (n := 3) (by decide))),
    register_readBack (l := .num0) rfl hb rfl rfl,
    register_readBack (l := .num1) rfl hb rfl rfl,
    register_readBack (l := .num2) rfl hb rfl (congrArg some (setWidth_extractLsb'_low v (n := 4) (by decide))),
    register_readBack (l := .tlenLo .t0) rfl hb rfl (readable_tlenLo _ .t0),
    register_readBack (l := .tlenHi .t0) rfl hb rfl (readable_tlenHi _ .t0),
    register_readBack (l := .tlenLo .t1) rfl hb rfl (readable_tlenLo _ .t1),
    register_readBack (l := .tlenHi .t1) rfl hb rfl (readable_tlenHi _ .t1),
    register_readBack (l := .tlenLo .t2) rfl hb rfl (readable_tlenLo _ .t2),
    register_readBack (l := .tlenHi .t2) rfl hb rfl (readable_tlenHi _ .t2)⟩

/-- Settles O19: every register address names its register, and no register's value is unspecified while BUSY = 0. -/
theorem readsWhileIdle : Obligations.ReadsWhileIdle := by
  intro s hb
  obtain ⟨herrcode, hnblk, hrem, hflenLo, hflenHi, hcsum⟩ := readable_result hb
  exact ⟨busRead_register (l := .cmd) rfl rfl, busRead_register (l := .status) rfl rfl,
    busRead_register rfl herrcode,
    busRead_register (l := .addr) rfl rfl, busRead_register (l := .argf) rfl rfl,
    busRead_register (l := .num0) rfl rfl, busRead_register (l := .num1) rfl rfl,
    busRead_register (l := .num2) rfl rfl,
    busRead_register rfl (readable_tlenLo s .t0), busRead_register rfl (readable_tlenHi s .t0),
    busRead_register rfl (readable_tlenLo s .t1), busRead_register rfl (readable_tlenHi s .t1),
    busRead_register rfl (readable_tlenLo s .t2), busRead_register rfl (readable_tlenHi s .t2),
    busRead_register rfl hnblk, busRead_register rfl hrem, busRead_register rfl hflenLo,
    busRead_register rfl hflenHi, busRead_register rfl hcsum,
    busRead_register (l := .tcapLo) rfl rfl, busRead_register (l := .tcapHi) rfl rfl⟩

/-! ## STATUS -/

/-- R28: the flags at bits 0 to 4 of the STATUS byte. -/
theorem statusWord_toNat (st : Status) :
    (statusWord st).toNat =
      st.busy.toNat + 2 * st.done.toNat + 4 * st.err.toNat + 8 * st.wign.toNat + 16 * st.hibit.toNat := by
  obtain ⟨busy, done, err, wign, hibit⟩ := st
  revert busy done err wign hibit
  decide

/-- R28: a 1 written to bit 3 clears WIGN. -/
theorem statusWritten_of_set {st : Status} {v : Byte} (h : v.getLsbD 3 = true) :
    statusWritten st v = { st with wign := false } := by
  rw [statusWritten, h, Bool.not_true, Bool.and_false]

/-- R28: a 0 written to bit 3 leaves WIGN. -/
theorem statusWritten_of_clear {st : Status} {v : Byte} (h : v.getLsbD 3 = false) : statusWritten st v = st := by
  rw [statusWritten, h, Bool.not_false, Bool.and_true]

/-- Settles O17: STATUS is outside the busy lock, and its write touches WIGN alone. -/
theorem statusWriteClearsOnlyWign : Obligations.StatusWriteClearsOnlyWign := by
  intro s v
  have hwrite : busWrite 0x0001 v s = { s with status := statusWritten s.status v } :=
    busWrite_register_unlocked (l := .status) rfl rfl
  have hread : busRead 0x0001 s = (statusWord s.status, s) := busRead_register (l := .status) rfl rfl
  refine ⟨fun h => ?_, fun h => ?_, ?_⟩
  · rw [hwrite, statusWritten_of_set h]
  · rw [hwrite, statusWritten_of_clear h]
  · rw [hread, statusWord_toNat]

/-! ## Reset -/

/-- R282: reset adds nothing to OUT while no command is pending. -/
theorem cutFrame_of_idle {n : Nat} {s : State} (hb : s.status.busy = false) : cutFrame n s = [] := by
  simp [cutFrame, hb]

/-- Settles O8: field by field, from what reset writes and what it leaves. -/
theorem resetSetsEveryRegister : Obligations.ResetSetsEveryRegister := by
  intro n s
  have hstatus : statusWord (resetBlock n s).status = 0x00 := by simp [statusWord]
  have hnum : num (resetBlock n s) = 0 := by simp [num_eq_bytes]
  have htlen (k : TextIdx) : tlen (resetBlock n s) k = 0 := by cases k <;> simp [tlen_eq_bytes]
  have hidle (hb : s.status.busy = false) : (resetBlock n s).out = s.out := by
    rw [resetBlock_out, cutFrame_of_idle hb, List.append_nil]
  exact ⟨_, rfl, rfl, hstatus, rfl, rfl, rfl, hnum, rfl, rfl, rfl, htlen, rfl, rfl, rfl, rfl, rfl, fun _ => rfl, rfl,
    List.prefix_append _ _, hidle, rfl, rfl, rfl, rfl, rfl, rfl⟩

/-- Settles O9: `State.reset` is `State.resetWith` at the reference TEXT_CAP. -/
theorem powerOnState : Obligations.PowerOnState := by
  refine ⟨rfl, ?_, rfl, rfl, rfl, rfl, rfl, rfl, rfl⟩
  decide

/-! ## Turns -/

/-- A turn that is listed is taken, and taken from the list. -/
theorem step_of_turn {s : State} {t : Turn} {ts : List Turn} (h : s.turns = t :: ts) :
    step s = takeTurn t { s with turns := ts } := by
  simp [step, nextTurn, h]

/-- Log entry 3: with no turn listed the schedule is the default one. -/
theorem step_of_no_turn {s : State} (h : s.turns = []) : step s = takeTurn (defaultTurn s) s := by
  simp [step, nextTurn, h]

theorem built_isError_iff {b : Built} : b.isError = true ↔ ∃ e, b = .error e := by
  cases b <;> simp [Built.isError]

/-- R123: when the completion step is enabled. -/
theorem engineEnabled_iff {s : State} :
    engineEnabled s = true ↔ s.status.busy = true ∧ (s.sinkReady = true ∨ ∃ e, payloadOfCmd s = .error e) := by
  simp [engineEnabled, built_isError_iff]

theorem engineStep_of_idle {s : State} (hb : s.status.busy = false) : engineStep s = .next s := by
  simp [engineStep, hb]

theorem engineStep_of_decoded {s : State} {i : Instr} (hb : s.status.busy = true) (hi : decode s.cmd = .ok i) :
    engineStep s = exec i s := by
  simp [engineStep, hb, hi]

theorem engineStep_of_illegal {s : State} {e : DecodeError} (hb : s.status.busy = true)
    (he : decode s.cmd = .error e) : engineStep s = .next (errorCompletion .illegalCmd s) := by
  simp [engineStep, hb, he]

/-- Settles O6: each kind of turn, listed and by default, and the three cases of the engine's step. -/
theorem stepTakesTheListedTurn : Obligations.StepTakesTheListedTurn := by
  intro s
  have hengine (hno : s.turns = []) (he : engineEnabled s = true) : step s = engineStep s := by
    rw [step_of_no_turn hno, defaultTurn, if_pos he, takeTurn]
  have hhost (hno : s.turns = []) (he : engineEnabled s = false) : step s = .next (hostStep s) := by
    rw [step_of_no_turn hno, defaultTurn, if_neg (by simp [he]), takeTurn]
  exact ⟨fun _ => ⟨step_of_turn, step_of_turn, fun _ => step_of_turn, fun _ => step_of_turn⟩, hengine, hhost,
    engineEnabled_iff, engineStep_of_idle, fun _ => engineStep_of_decoded, fun _ => engineStep_of_illegal⟩

end Sys2Proof.Machine
end

section
/-! PROOFS. The host bus over the address map: which locations a write leaves alone, which reads are draws, and the windows
of TBUF and FBUF (R62, R63, R69, R71, R72, R121, R122). -/

namespace Sys2Proof.Machine

/-! ## Memory -/

/-- Settles O54: the two parts of the invariant that speak of memory. -/
theorem stepKeepsMemoryCanonical : Obligations.StepKeepsMemoryCanonical := fun _ _ hstep =>
  ⟨fun hwf => step_keeps_memory_wf hwf hstep, fun _ hmapped => step_keeps_memMapped hmapped hstep⟩

/-! ## Classes of locations -/

/-- R122: the locations whose reads are unspecified while BUSY = 1. -/
def resultLoc : Loc → Bool
  | .errcode | .nblk | .rem | .flenLo | .flenHi | .csum | .fbuf _ => true
  | .cmd | .status | .addr | .argf | .num0 | .num1 | .num2 | .tlenLo _ | .tlenHi _ | .tcapLo | .tcapHi | .tbuf _ _
  | .reserved => false

/-- R71, R72, R122: a location has no specified value only as a result while BUSY = 1, or as a buffer byte that holds no
value. -/
theorem readable_eq_none {s : State} {l : Loc} (h : readable s l = none) :
    (s.status.busy = true ∧ resultLoc l = true) ∨
      ∃ a, ((∃ k, l = .tbuf k a) ∨ l = .fbuf a) ∧ memLookup s.mem a = none := by
  cases l with
  | errcode | nblk | rem | flenLo | flenHi | csum => exact .inl ⟨by simpa [readable] using h, rfl⟩
  | tbuf k a => exact .inr ⟨a, .inl ⟨k, rfl⟩, h⟩
  | fbuf a =>
    cases hb : s.status.busy with
    | true => exact .inl ⟨rfl, rfl⟩
    | false => exact .inr ⟨a, .inr rfl, by simpa [readable, hb] using h⟩
  | cmd | status | addr | argf | num0 | num1 | num2 | tlenLo | tlenHi | tcapLo | tcapHi | reserved => cases h

/-- R63: outside the busy lock only STATUS stores what is written to it. -/
theorem writeLoc_unlocked {l : Loc} (hlock : busyLocked l = false) (hstatus : l ≠ .status) (v : Byte) (s : State) :
    writeLoc v s l = s := by
  cases l with
  | status => exact absurd rfl hstatus
  | errcode | nblk | rem | flenLo | flenHi | csum | tcapLo | tcapHi | fbuf | reserved => rfl
  | cmd | addr | argf | num0 | num1 | num2 | tlenLo | tlenHi | tbuf => cases hlock

/-- R121: only a write to CMD changes BUSY. -/
theorem writeLoc_busy {l : Loc} (hl : l ≠ .cmd) (v : Byte) (s : State) :
    (writeLoc v s l).status.busy = s.status.busy := by
  cases l with
  | cmd => exact absurd rfl hl
  | tlenLo k | tlenHi k => cases k <;> rfl
  | _ => rfl

/-- R34: no write changes TEXT_CAP. -/
theorem writeLoc_textCap (l : Loc) (v : Byte) (s : State) : textCap (writeLoc v s l) = textCap s := by
  cases l with
  | tlenLo k | tlenHi k => cases k <;> rfl
  | _ => rfl

/-- R69: a store anywhere but CMD, done twice, is done once. -/
theorem writeLoc_writeLoc {l : Loc} (hl : l ≠ .cmd) (v : Byte) (s : State) :
    writeLoc v (writeLoc v s l) l = writeLoc v s l := by
  cases l with
  | cmd => exact absurd rfl hl
  | status => simp [writeLoc, statusWritten]
  | tbuf k a => simp [writeLoc, memStore_memStore_byte]
  | tlenLo k | tlenHi k => cases k <;> rfl
  | _ => rfl

/-! ## Classes of addresses -/

/-- R5, R71: a legal TEXT_CAP fits the window of a text buffer. -/
theorem CapOk.le_window {s : State} (h : CapOk s) : textCap s ≤ 0x400 := h.2.trans (by decide)

/-- R62: what an address of the host register space names, with the window it lies in. -/
theorem locate_cases (cap : Nat) (a : Addr) :
    registerAt a.toNat = some (locate cap a) ∨
    (∃ k, inTbuf cap k a.toNat = true ∧ locate cap a = .tbuf k a.toNat) ∨
    (inFbuf cap a.toNat = true ∧ locate cap a = .fbuf a.toNat) ∨
    locate cap a = .reserved := by
  cases hr : registerAt a.toNat with
  | some l => exact .inl (congrArg some (locate_register hr).symm)
  | none =>
    refine .inr ?_
    unfold locate
    rw [hr]
    dsimp only
    split_ifs with h0 h1 h2 hf
    · exact .inl ⟨.t0, h0, rfl⟩
    · exact .inl ⟨.t1, h1, rfl⟩
    · exact .inl ⟨.t2, h2, rfl⟩
    · exact .inr (.inl ⟨hf, rfl⟩)
    · exact .inr (.inr rfl)

theorem registerAt_lt {n : Nat} {l : Loc} (h : registerAt n = some l) : n < 0x0016 := by
  by_contra hn
  rw [registerAt_of_ge (by omega)] at h
  cases h

/-- R62: the register addresses by the class of the register they name: the busy-locked ones, the result registers, CMD
and STATUS. -/
theorem registerAt_class : ∀ n < 0x0016, ∀ l ∈ registerAt n,
    (busyLocked l = true → n = 0x0000 ∨ (0x0003 ≤ n ∧ n ≤ 0x000D)) ∧
    (resultLoc l = true → n = 0x0002 ∨ (0x000E ≤ n ∧ n ≤ 0x0012)) ∧
    (l = .cmd → n = 0x0000) ∧ (l = .status → n = 0x0001) := by decide

/-- R121: only busy-locked addresses name busy-locked locations. -/
theorem lockedAddr_of_busyLocked {cap : Nat} {a : Addr} (h : busyLocked (locate cap a) = true) :
    LockedAddr cap a.toNat := by
  obtain hr | ⟨k, hk, hl⟩ | ⟨_, hl⟩ | hl := locate_cases cap a
  · obtain ⟨hlocked, _⟩ := registerAt_class _ (registerAt_lt hr) _ hr
    exact (hlocked h).imp_right .inl
  · rw [inTbuf_iff, tbufBase_eq] at hk
    exact .inr (.inr ⟨k, hk⟩)
  · rw [hl] at h; cases h
  · rw [hl] at h; cases h

/-- R122: only the result addresses name result locations. -/
theorem resultAddr_of_resultLoc {cap : Nat} {a : Addr} (h : resultLoc (locate cap a) = true) :
    ResultAddr cap a.toNat := by
  obtain hr | ⟨k, _, hl⟩ | ⟨hf, hl⟩ | hl := locate_cases cap a
  · obtain ⟨_, hresult, _⟩ := registerAt_class _ (registerAt_lt hr) _ hr
    exact (hresult h).imp_right .inl
  · rw [hl] at h; cases h
  · exact .inr (.inr (inFbuf_iff.mp hf))
  · rw [hl] at h; cases h

theorem locate_ne_cmd {cap : Nat} {a : Addr} (h : a.toNat ≠ 0x0000) : locate cap a ≠ .cmd := by
  intro hc
  obtain hr | ⟨_, _, hl⟩ | ⟨_, hl⟩ | hl := locate_cases cap a
  · obtain ⟨_, _, hcmd, _⟩ := registerAt_class _ (registerAt_lt hr) _ hr
    exact h (hcmd hc)
  all_goals rw [hl] at hc; cases hc

theorem locate_ne_status {cap : Nat} {a : Addr} (h : a.toNat ≠ 0x0001) : locate cap a ≠ .status := by
  intro hc
  obtain hr | ⟨_, _, hl⟩ | ⟨_, hl⟩ | hl := locate_cases cap a
  · obtain ⟨_, _, _, hstatus⟩ := registerAt_class _ (registerAt_lt hr) _ hr
    exact h (hstatus hc)
  all_goals rw [hl] at hc; cases hc

/-- R63: the read-only addresses are not busy-locked, and none is STATUS. -/
theorem not_lockedAddr_of_readOnly {cap n : Nat} (hcap : cap ≤ 0x400) (h : ReadOnlyAddr cap n) :
    ¬LockedAddr cap n ∧ n ≠ 0x0001 := by
  have hwindow (k : TextIdx) : 0x1000 + 0x400 * textNumber k + cap ≤ 0x2000 := by
    cases k <;> simp only [textNumber] <;> omega
  refine ⟨?_, by rcases h with h | h | h | h | h <;> omega⟩
  rintro (hl | hl | ⟨k, hl⟩)
  · rcases h with h | h | h | h | h <;> omega
  · rcases h with h | h | h | h | h <;> omega
  · have := hwindow k
    rcases h with h | h | h | h | h <;> omega

/-! ## Reads and writes by the class of the address -/

/-- R63, R69: a write outside the busy-locked addresses and STATUS changes nothing, whatever BUSY is. -/
theorem busWrite_of_unlocked {a : Addr} {s : State} (hlock : ¬LockedAddr (textCap s) a.toNat)
    (hstatus : a.toNat ≠ 0x0001) (v : Byte) : busWrite a v s = s := by
  have hunlocked : busyLocked (locate (textCap s) a) = false := by
    simpa using mt lockedAddr_of_busyLocked hlock
  rw [busWrite_unlocked rfl hunlocked, writeLoc_unlocked hunlocked (locate_ne_status hstatus)]

/-- R63: a reserved address reads 0x00 and ignores writes. -/
theorem bus_reserved {a : Addr} {s : State} (hcap : CapOk s) (h : ReservedAddr (textCap s) a.toNat) :
    busRead a s = (0x00, s) ∧ ∀ v, busWrite a v s = s := by
  have hl := locate_reserved hcap.le_window h
  exact ⟨busRead_of_readable hl rfl, fun _ => busWrite_unlocked hl rfl⟩

/-- R69: a write anywhere but CMD, done twice, is done once. -/
theorem busWrite_busWrite {a : Addr} {s : State} (ha : a.toNat ≠ 0x0000) (v : Byte) :
    busWrite a v (busWrite a v s) = busWrite a v s := by
  have hcmd : locate (textCap s) a ≠ .cmd := locate_ne_cmd ha
  rcases busWrite_cases a v s with ⟨hb, hlock, h⟩ | ⟨hfree, h⟩
  · rw [h]
    exact busWrite_locked (s := { s with status := statusIgnored s.status }) rfl hlock hb
  · rw [h]
    rcases busWrite_cases a v (writeLoc v s (locate (textCap s) a)) with ⟨hb, hlock, _⟩ | ⟨_, h2⟩
    · rw [writeLoc_busy hcmd] at hb
      rw [writeLoc_textCap] at hlock
      simp [hb, hlock] at hfree
    · rw [h2, writeLoc_textCap, writeLoc_writeLoc hcmd]

/-- R69, R71, R72, R122: a read has no side effect; it is a draw only where no rule gives a value. -/
theorem busRead_sideEffect (a : Addr) (s : State) :
    (busRead a s).2 = s ∨
      (busRead a s = (Config.drawByte s.draws, { s with draws := s.draws + 1 }) ∧
        ((s.status.busy = true ∧ ResultAddr (textCap s) a.toNat) ∨
          (((∃ k, inTbuf (textCap s) k a.toNat = true) ∨ inFbuf (textCap s) a.toNat = true) ∧
            memLookup s.mem a.toNat = none))) := by
  obtain ⟨v, _, h⟩ | ⟨hno, h⟩ := busRead_cases a s
  · exact .inl (by rw [h])
  · refine .inr ⟨h, ?_⟩
    obtain ⟨hb, hl⟩ | ⟨n, ⟨k, hl⟩ | hl, hnone⟩ := readable_eq_none hno
    · exact .inl ⟨hb, resultAddr_of_resultLoc hl⟩
    · obtain ⟨rfl, hk⟩ := locate_eq_tbuf hl
      exact .inr ⟨.inl ⟨k, hk⟩, hnone⟩
    · obtain ⟨rfl, hf⟩ := locate_eq_fbuf hl
      exact .inr ⟨.inr hf, hnone⟩

/-- Settles O11: no reserved or read-only location is busy-locked, and none stores. -/
theorem reservedAndReadOnlyIgnoreWrites : Obligations.ReservedAndReadOnlyIgnoreWrites := by
  intro s hcap a
  refine ⟨bus_reserved hcap, fun h => ?_⟩
  obtain ⟨hlock, hstatus⟩ := not_lockedAddr_of_readOnly hcap.le_window h
  exact busWrite_of_unlocked hlock hstatus

/-- Settles O20: by the class of the location that the address names. -/
theorem hostReadsHaveNoSideEffect : Obligations.HostReadsHaveNoSideEffect := fun s a =>
  ⟨busRead_sideEffect a s, busWrite_of_unlocked, busWrite_busWrite⟩

/-! ## The windows -/

/-- R71: a mapped TBUF byte stores what is written to it, and no other byte changes. -/
theorem busWrite_tbuf {s : State} {k : TextIdx} {a : Addr} (hl : locate (textCap s) a = .tbuf k a.toNat)
    (hb : s.status.busy = false) (v : Byte) :
    busWrite a v s = { s with mem := memStore s.mem a.toNat [v] } := busWrite_idle hl hb

theorem memLookup_memStore_byte (m : Memory) (a x : Nat) (v : Byte) :
    memLookup (memStore m a [v]) x = if x = a then some v else memLookup m x := by
  rw [memLookup_memStore, List.length_singleton]
  by_cases hx : x = a
  · subst hx
    simp
  · rw [if_neg hx, if_neg (by omega)]

/-- Settles O15: a mapped address names its TBUF byte, an unmapped one is reserved. -/
theorem textBufferWindows : Obligations.TextBufferWindows := by
  intro s k i hcap hi a ha
  have hmapped (hlt : i < textCap s) : locate (textCap s) a = .tbuf k a.toNat :=
    locate_tbuf hcap.le_window hlt ha
  refine ⟨fun hlt v => ⟨fun hb => ⟨_, busWrite_tbuf (hmapped hlt) hb v, ?_, fun x hx => ?_, rfl, ?_⟩,
    busWrite_locked (hmapped hlt) rfl⟩, fun hlt v => busRead_of_readable (hmapped hlt),
    fun hlt => busRead_of_unreadable (hmapped hlt), fun hge => bus_reserved hcap ?_⟩
  · rw [memLookup_memStore_byte, if_pos rfl]
  · rw [memLookup_memStore_byte, if_neg hx]
  · refine busRead_of_readable (l := .tbuf k a.toNat) (hmapped hlt) ?_
    simp [readable, memLookup_memStore_byte]
  · exact .inr (.inr (.inl ⟨k, by omega, by omega⟩))

/-- R72: while BUSY = 0 a byte of the held frame reads as that byte. -/
theorem busRead_fbuf_held {s : State} {f : Bytes} {i : Nat} {a : Addr} (hcap : CapOk s) (hf : FbufHolds s f)
    (hfit : f.length ≤ frameCap (textCap s)) (ha : a.toNat = 0x2000 + i) (hb : s.status.busy = false)
    (hi : i < f.length) : busRead a s = (f[i], s) := by
  have hl := locate_fbuf hcap.le_window (hi.trans_le hfit) ha
  have hbyte : memLookup s.mem a.toNat = some f[i] := by
    rw [ha, ← List.getElem?_eq_getElem hi]
    exact hf i (hi.trans_le hfit)
  refine busRead_of_readable hl ?_
  simp [readable, hb, hbyte]

/-- R72, R122: a mapped FBUF byte beyond the held frame, and every mapped FBUF byte while BUSY = 1, reads as a draw. -/
theorem busRead_fbuf_unspecified {s : State} {f : Bytes} {i : Nat} {a : Addr} (hcap : CapOk s) (hf : FbufHolds s f)
    (ha : a.toNat = 0x2000 + i) (h : f.length ≤ i ∨ s.status.busy = true) (hi : i < frameCap (textCap s)) :
    busRead a s = (Config.drawByte s.draws, { s with draws := s.draws + 1 }) := by
  refine busRead_of_unreadable (locate_fbuf hcap.le_window hi ha) ?_
  rcases h with hlen | hb
  · have hnone : memLookup s.mem a.toNat = none := by
      rw [ha, ← List.getElem?_eq_none hlen]
      exact hf i hi
    simp [readable, hnone]
  · simp [readable, hb]

/-- Settles O22: an address of the FBUF window names a mapped byte or is reserved. -/
theorem frameBufferWindow : Obligations.FrameBufferWindow := by
  intro s f i hcap hf hfit hi a ha
  have hreserved (hge : frameCap (textCap s) ≤ i) : busRead a s = (0x00, s) ∧ ∀ v, busWrite a v s = s :=
    bus_reserved hcap (.inr (.inr (.inr (.inr (.inl ⟨by omega, by omega⟩)))))
  refine ⟨fun v => ?_, busRead_fbuf_held hcap hf hfit ha, busRead_fbuf_unspecified hcap hf ha,
    fun hge => (hreserved hge).1⟩
  rcases lt_or_ge i (frameCap (textCap s)) with hlt | hge
  · exact busWrite_unlocked (locate_fbuf hcap.le_window hlt ha) rfl
  · exact (hreserved hge).2 v

end Sys2Proof.Machine
end

section
/-! PROOFS. Reserved bits, multi-byte registers, and texts written byte by byte (R64, R65, R71, R92, R93). -/

namespace Sys2Proof.Machine

/-! ## Reserved bits -/

/-- R64: STATUS holds five bits. -/
theorem statusWord_lt (st : Status) : (statusWord st).toNat < 2 ^ 5 := by
  have hbit := Bool.toNat_le
  have := hbit st.busy
  have := hbit st.done
  have := hbit st.err
  have := hbit st.wign
  have := hbit st.hibit
  rw [statusWord_toNat]
  omega

/-- Two bytes that store the same at a location are the same to a write there. -/
theorem busWrite_congr {a : Addr} {s : State} {l : Loc} {v w : Byte} (hl : locate (textCap s) a = l)
    (h : writeLoc v s l = writeLoc w s l) : busWrite a v s = busWrite a w s := by
  rw [busWrite, busWrite, hl, h]

/-- R28, R64: a write to STATUS depends on bit 3 alone. -/
theorem statusWritten_congr {st : Status} {v w : Byte} (h : v.getLsbD 3 = w.getLsbD 3) :
    statusWritten st v = statusWritten st w := by
  rw [statusWritten, statusWritten, h]

/-- Settles O12: the reserved bits are not held, and a write stores only the held ones. -/
theorem reservedBitsReadZero : Obligations.ReservedBitsReadZero := by
  intro s
  have hargf : busRead 0x0004 s = (s.argf.setWidth 8, s) := busRead_register (l := .argf) rfl rfl
  have hnum2 : busRead 0x0007 s = (s.num2.setWidth 8, s) := busRead_register (l := .num2) rfl rfl
  have hstatus : busRead 0x0001 s = (statusWord s.status, s) := busRead_register (l := .status) rfl rfl
  refine ⟨fun j hj => ?_, fun j hj => ?_, fun j hj => ?_, fun v w h => ?_, fun v w h => ?_, fun v w h => ?_⟩
  · rw [hargf, BitVec.getLsbD_setWidth, BitVec.getLsbD_of_ge _ _ hj, Bool.and_false]
  · rw [hnum2, BitVec.getLsbD_setWidth, BitVec.getLsbD_of_ge _ _ hj, Bool.and_false]
  · rw [hstatus, ← BitVec.testBit_toNat]
    exact Nat.testBit_lt_two_pow ((statusWord_lt s.status).trans_le (Nat.pow_le_pow_right (by decide) hj))
  · exact busWrite_congr (l := .argf) rfl (by rw [writeLoc, writeLoc, h])
  · exact busWrite_congr (l := .num2) rfl (by rw [writeLoc, writeLoc, h])
  · have hbit : v.getLsbD 3 = w.getLsbD 3 := by
      simpa [BitVec.getLsbD_extractLsb'] using congrArg (fun x => x.getLsbD 3) h
    exact busWrite_congr (l := .status) rfl (by rw [writeLoc, writeLoc, statusWritten_congr hbit])

/-! ## The order of writes -/

/-- Two host writes that leave the same state in either order. -/
def WritesCommute (x y : Addr × Byte) : Prop :=
  ∀ s, busWrite y.1 y.2 (busWrite x.1 x.2 s) = busWrite x.1 x.2 (busWrite y.1 y.2 s)

/-- Writes to two operand registers commute when their stores do: while BUSY = 1 each only sets WIGN. -/
theorem writesCommute_of_operands {a b : Addr} {v w : Byte} {l m : Loc} (ha : registerAt a.toNat = some l)
    (hb : registerAt b.toNat = some m) (hl : busyLocked l = true ∧ l ≠ .cmd) (hm : busyLocked m = true ∧ m ≠ .cmd)
    (hstores : ∀ s, writeLoc w (writeLoc v s l) m = writeLoc v (writeLoc w s m) l) :
    WritesCommute (a, v) (b, w) := by
  obtain ⟨hlockl, hcmdl⟩ := hl
  obtain ⟨hlockm, hcmdm⟩ := hm
  intro s
  cases hbusy : s.status.busy with
  | true =>
    have hignored : ({ s with status := { s.status with wign := true } } : State).status.busy = true := hbusy
    dsimp only
    rw [busWrite_locked (locate_register ha) hlockl hbusy, busWrite_locked (locate_register hb) hlockm hbusy,
      busWrite_locked (locate_register ha) hlockl hignored, busWrite_locked (locate_register hb) hlockm hignored]
  | false =>
    dsimp only
    rw [busWrite_register ha hbusy, busWrite_register hb hbusy,
      busWrite_register hb ((writeLoc_busy hcmdl v s).trans hbusy),
      busWrite_register ha ((writeLoc_busy hcmdm w s).trans hbusy), hstores]

/-- Writes that commute pairwise can be made in any order. -/
theorem foldl_busWrite_perm {ws xs : List (Addr × Byte)} (hperm : ws.Perm xs) (hcomm : xs.Pairwise WritesCommute)
    (s : State) :
    ws.foldl (fun u w => busWrite w.1 w.2 u) s = xs.foldl (fun u w => busWrite w.1 w.2 u) s := by
  have hany := List.Pairwise.forall_of_forall_of_flip (R := WritesCommute) (l := xs) (fun _ _ _ => rfl) hcomm
    (hcomm.imp fun h u => (h u).symm)
  exact (hperm.symm.foldl_eq' (fun x hx y hy u => hany hx hy u) s).symm

/-! ## Multi-byte registers -/

/-- R65: a 16-bit register is its low byte and its high byte. -/
theorem half_toNat (x : Half) : x.toNat = (x.extractLsb' 0 8).toNat + 256 * (x.extractLsb' 8 8).toNat := by
  have := x.isLt
  rw [BitVec.extractLsb'_toNat, BitVec.extractLsb'_toNat, Nat.shiftRight_eq_div_pow, Nat.shiftRight_eq_div_pow]
  omega

theorem registerAt_tlenLo (k : TextIdx) :
    registerAt (BitVec.ofNat 16 (0x0008 + 2 * textNumber k)).toNat = some (.tlenLo k) := by
  cases k <;> rfl

theorem registerAt_tlenHi (k : TextIdx) :
    registerAt (BitVec.ofNat 16 (0x0009 + 2 * textNumber k)).toNat = some (.tlenHi k) := by
  cases k <;> rfl

/-- R93: the two bytes of TLENk, once stored, are its value. -/
theorem tlen_writeLoc (s : State) (k : TextIdx) (lo hi : Byte) :
    tlen (writeLoc hi (writeLoc lo s (.tlenLo k)) (.tlenHi k)) k = lo.toNat + 256 * hi.toNat := by
  rw [tlen_eq_bytes]
  cases k <;> rfl

/-- R92: NUM after its bytes are written, the low one first. -/
theorem num_of_writes {s : State} (hb : s.status.busy = false) (b0 b1 b2 : Byte) :
    num (busWrite 0x0007 b2 (busWrite 0x0006 b1 (busWrite 0x0005 b0 s))) =
      b0.toNat + 256 * b1.toNat + 65536 * (b2.toNat % 16) := by
  have h0 : busWrite 0x0005 b0 s = { s with num0 := b0 } := busWrite_register (l := .num0) rfl hb
  have h1 : busWrite 0x0006 b1 { s with num0 := b0 } = { s with num0 := b0, num1 := b1 } :=
    busWrite_register (l := .num1) rfl hb
  have h2 : busWrite 0x0007 b2 { s with num0 := b0, num1 := b1 } =
      { s with num0 := b0, num1 := b1, num2 := b2.extractLsb' 0 4 } := busWrite_register (l := .num2) rfl hb
  rw [h0, h1, h2, num_eq_bytes, BitVec.extractLsb'_toNat, Nat.shiftRight_zero]

/-- R93: the state after the bytes of TLENk are written, the low one first. -/
theorem busWrite_tlen {s : State} (hb : s.status.busy = false) (k : TextIdx) (lo hi : Byte) :
    busWrite (BitVec.ofNat 16 (0x0009 + 2 * textNumber k)) hi
        (busWrite (BitVec.ofNat 16 (0x0008 + 2 * textNumber k)) lo s) =
      writeLoc hi (writeLoc lo s (.tlenLo k)) (.tlenHi k) := by
  rw [busWrite_register (registerAt_tlenLo k) hb,
    busWrite_register (registerAt_tlenHi k) ((writeLoc_busy (l := .tlenLo k) nofun lo s).trans hb)]

/-- R65: the writes to the three bytes of NUM commute. -/
theorem num_writesCommute (b0 b1 b2 : Byte) :
    List.Pairwise WritesCommute [(0x0005, b0), (0x0006, b1), (0x0007, b2)] := by
  have h01 : WritesCommute (0x0005, b0) (0x0006, b1) :=
    writesCommute_of_operands (l := .num0) (m := .num1) rfl rfl (by decide) (by decide) fun _ => rfl
  have h02 : WritesCommute (0x0005, b0) (0x0007, b2) :=
    writesCommute_of_operands (l := .num0) (m := .num2) rfl rfl (by decide) (by decide) fun _ => rfl
  have h12 : WritesCommute (0x0006, b1) (0x0007, b2) :=
    writesCommute_of_operands (l := .num1) (m := .num2) rfl rfl (by decide) (by decide) fun _ => rfl
  simpa using ⟨⟨h01, h02⟩, h12⟩

/-- R65: the writes to the two bytes of TLENk commute. -/
theorem tlen_writesCommute (k : TextIdx) (lo hi : Byte) :
    List.Pairwise WritesCommute
      [(BitVec.ofNat 16 (0x0008 + 2 * textNumber k), lo), (BitVec.ofNat 16 (0x0009 + 2 * textNumber k), hi)] :=
  List.pairwise_pair.mpr
    (writesCommute_of_operands (registerAt_tlenLo k) (registerAt_tlenHi k) ⟨rfl, nofun⟩ ⟨rfl, nofun⟩
      fun _ => by cases k <;> rfl)

/-- Settles O14: the byte writes commute, so their order does not matter; the reads split the register's value. -/
theorem multiByteRegistersAreLittleEndian : Obligations.MultiByteRegistersAreLittleEndian := by
  intro s hb
  obtain ⟨_, _, _, hflenLo, hflenHi, _⟩ := readable_result hb
  refine ⟨fun b0 b1 b2 ws hperm => ?_, fun lo hi k ws hperm => ?_, ?_, ?_⟩
  · rw [foldl_busWrite_perm hperm (num_writesCommute b0 b1 b2)]
    exact num_of_writes hb b0 b1 b2
  · rw [foldl_busWrite_perm hperm (tlen_writesCommute k lo hi)]
    simp only [List.foldl_cons, List.foldl_nil, busWrite_tlen hb, tlen_writeLoc]
  · rw [busRead_register (a := 0x0010) rfl hflenLo, busRead_register (a := 0x0011) rfl hflenHi]
    exact half_toNat s.flen
  · rw [busRead_register (a := 0x0014) (l := .tcapLo) rfl rfl, busRead_register (a := 0x0015) (l := .tcapHi) rfl rfl]
    exact half_toNat s.tcap

/-! ## Texts -/

/-- The bus writes of the bytes of `t` to the window of text `k`, lowest address first. -/
def textWrites (k : TextIdx) (t : Bytes) : List (Addr × Byte) :=
  (t.zipIdx 0).map (fun c => (BitVec.ofNat 16 (0x1000 + 0x400 * textNumber k + c.2), c.1))

theorem textWrites_concat (k : TextIdx) (t : Bytes) (b : Byte) :
    textWrites k (t ++ [b]) =
      textWrites k t ++ [(BitVec.ofNat 16 (0x1000 + 0x400 * textNumber k + t.length), b)] := by
  simp [textWrites, List.zipIdx_append]

/-- R71: a mapped byte of a window, as a bus address. -/
theorem tbufAddr_toNat (k : TextIdx) {i : Nat} (hi : i < 0x400) :
    (BitVec.ofNat 16 (0x1000 + 0x400 * textNumber k + i)).toNat = 0x1000 + 0x400 * textNumber k + i := by
  rw [BitVec.toNat_ofNat, Nat.mod_eq_of_lt]
  cases k <;> simp only [textNumber] <;> omega

/-- R71: writing the bytes of a text to its window changes memory alone, and puts each byte at its place. -/
theorem foldl_busWrite_textWrites {s : State} {t : Bytes} (k : TextIdx) (hcap : CapOk s)
    (hb : s.status.busy = false) (ht : t.length ≤ textCap s) :
    ∃ m, (textWrites k t).foldl (fun u w => busWrite w.1 w.2 u) s = { s with mem := m } ∧
      ∀ j, j < t.length → memLookup m (tbufBase k + j) = t[j]? := by
  induction t using List.reverseRecOn with
  | nil => exact ⟨s.mem, rfl, fun j hj => absurd hj (Nat.not_lt_zero j)⟩
  | append_singleton t b ih =>
    rw [List.length_append, List.length_singleton] at ht
    obtain ⟨m, hfold, hbytes⟩ := ih (by omega)
    have haddr := tbufAddr_toNat k (i := t.length) (by have := hcap.le_window; omega)
    have hstore := busWrite_tbuf (s := { s with mem := m }) (locate_tbuf hcap.le_window ht haddr) hb b
    refine ⟨memStore m (0x1000 + 0x400 * textNumber k + t.length) [b], ?_, fun j hj => ?_⟩
    · rw [textWrites_concat, List.foldl_append, hfold]
      rwa [haddr] at hstore
    · rw [List.length_append, List.length_singleton] at hj
      rw [memLookup_memStore_byte, tbufBase_eq]
      rcases Nat.lt_succ_iff_lt_or_eq.mp hj with hlt | rfl
      · rw [if_neg (by omega), List.getElem?_append_left hlt, ← hbytes j hlt, tbufBase_eq]
      · rw [if_pos rfl, List.getElem?_concat_length]

theorem writeLoc_tlen_mem (s : State) (k : TextIdx) (lo hi : Byte) :
    (writeLoc hi (writeLoc lo s (.tlenLo k)) (.tlenHi k)).mem = s.mem := by
  cases k <;> rfl

/-- Settles O26: the byte writes put the text in its window, and the length writes leave it there. -/
theorem writtenTextIsReadBack : Obligations.WrittenTextIsReadBack := by
  intro s k t hcap hb ht
  obtain ⟨m, hfold, hbytes⟩ := foldl_busWrite_textWrites k hcap hb ht
  rw [textWrites] at hfold
  rw [List.foldl_append, hfold]
  simp only [List.foldl_cons, List.foldl_nil, busWrite_tlen (s := { s with mem := m }) hb]
  refine ⟨?_, fun j hj => ?_⟩
  · have := ht.trans hcap.le_window
    rw [tlen_writeLoc, BitVec.toNat_ofNat, BitVec.toNat_ofNat]
    omega
  · rw [writeLoc_tlen_mem]
    exact hbytes j hj

end Sys2Proof.Machine
end

section
/-! PROOFS. What the host reads after a completion (R75, R126, R128, R155). -/

namespace Sys2Proof.Machine

/-! ## The result registers hold their counts -/

theorem screenText_length_le (t0 t1 : Bytes) : (screenText t0 t1).length ≤ t0.length + t1.length + 3 := by
  rw [screenText_length]
  split <;> omega

/-- R155: the block count and the remainder of every command fit their registers. -/
theorem payload_counts_lt {i : Instr} {s : State} {p : Bytes} {nb rem : Nat} (hcap : CapOk s)
    (h : payload i s = .ok p nb rem) : nb < 256 ∧ rem < 256 := by
  have hmax := hcap.2
  cases i with
  | line | linex | course | destid | ticket | time | date | delay =>
    obtain ⟨_, _, rfl, rfl⟩ := numberField_ok h
    decide
  | nextv =>
    obtain ⟨_, h⟩ := checkLen_ok h
    split at h
    · cases h
    · split at h
      · cases h
      · obtain ⟨t, _, h⟩ := withText_ok h
        cases h
        decide
  | desttxt =>
    obtain ⟨t, hlen, h⟩ := checkedText_ok h
    cases h
    have := nblocks_bounds t (b := 16) (by decide)
    show nblocks t 16 < 256 ∧ 0 < 256
    omega
  | nextstop | addrdest =>
    obtain ⟨t, hlen, h⟩ := checkedText_ok h
    cases h
    have := nblocks_bounds t (b := 4) (by decide)
    show nblocks t 4 < 256 ∧ 0 < 256
    omega
  | lineprog =>
    obtain ⟨hl0, h⟩ := checkLen_ok h
    obtain ⟨hl1, h⟩ := checkLen_ok h
    obtain ⟨hl2, h⟩ := checkLen_ok h
    obtain ⟨t0, ht0, h⟩ := withText_ok h
    obtain ⟨t1, ht1, h⟩ := withText_ok h
    obtain ⟨t2, ht2, h⟩ := withText_ok h
    cases h
    have := nblocks_bounds (lineprogRecord t0 t1 t2) (b := 16) (by decide)
    have := lineprogRecord_length t0 t1 t2
    have := ht0.length_le hl0
    have := ht1.length_le hl1
    have := ht2.length_le hl2
    rw [← nblocks]
    omega
  | screen =>
    obtain ⟨hl0, h⟩ := checkLen_ok h
    obtain ⟨hl1, h⟩ := checkLen_ok h
    obtain ⟨t0, ht0, h⟩ := withText_ok h
    obtain ⟨t1, ht1, h⟩ := withText_ok h
    cases h
    have := nblocks_bounds (screenText t0 t1) (b := 16) (by decide)
    have := screenText_length_le t0 t1
    have := ht0.length_le hl0
    have := ht1.length_le hl1
    show nblocks (screenText t0 t1) 16 < 256 ∧ 0 < 256
    omega
  | frameraw =>
    obtain ⟨t, _, h⟩ := checkedText_ok h
    cases h
    decide

/-- R131: the frame of a command that succeeds fits FBUF. -/
theorem payload_frame_fits {i : Instr} {s : State} {p : Bytes} {nb rem : Nat} (h : payload i s = .ok p nb rem) :
    (frame p).length ≤ frameCap (textCap s) := by
  have := payload_length_le h
  rw [frame_length, frameCap]
  omega

/-- R32: the length of a frame that fits FBUF fits FLEN. -/
theorem flen_of_fits {s : State} {n : Nat} (hcap : CapOk s) (h : n ≤ frameCap (textCap s)) :
    (BitVec.ofNat 16 n).toNat = n := by
  have := hcap.2
  rw [frameCap] at h
  rw [BitVec.toNat_ofNat, Nat.mod_eq_of_lt (by omega)]

/-! ## STATUS, bit by bit -/

/-- R28: the flag at each bit of the STATUS byte. -/
theorem statusWord_getLsbD (st : Status) :
    (statusWord st).getLsbD 0 = st.busy ∧ (statusWord st).getLsbD 1 = st.done ∧ (statusWord st).getLsbD 2 = st.err ∧
      (statusWord st).getLsbD 3 = st.wign ∧ (statusWord st).getLsbD 4 = st.hibit := by
  obtain ⟨busy, done, err, wign, hibit⟩ := st
  revert busy done err wign hibit
  decide

/-- R28: a read of STATUS returns the flags and changes nothing. -/
theorem busRead_status (s : State) : busRead 0x0001 s = (statusWord s.status, s) :=
  busRead_register (l := .status) rfl rfl

/-! ## FBUF addresses -/

/-- R72: the bus address of a mapped FBUF byte. -/
theorem fbufAddr_toNat {s : State} {j : Nat} (hcap : CapOk s) (hj : j < frameCap (textCap s)) :
    (BitVec.ofNat 16 (0x2000 + j)).toNat = 0x2000 + j := by
  have := hcap.2
  rw [frameCap] at hj
  rw [BitVec.toNat_ofNat, Nat.mod_eq_of_lt (by omega)]

/-! ## The completions -/

/-- R123, R125: a command whose payload is built completes with success while the sink accepts. -/
theorem exec_of_ok {i : Instr} {s : State} {p : Bytes} {nb rem : Nat} (hsink : s.sinkReady = true)
    (hp : payload i s = .ok p nb rem) : exec i s = .next (successCompletion p nb rem s) := by
  simp [exec_eq_complete, hp, complete, hsink]

/-- R123, R128: a pending command whose payload is an error completes with it, whatever the sink. -/
theorem engineStep_of_error {s : State} {e : ErrCode} (hb : s.status.busy = true) (he : payloadOfCmd s = .error e) :
    engineStep s = .next (errorCompletion e s) := by
  simp [engineStep_eq, hb, he, complete]

/-- Settles O23: the completion leaves BUSY = 0, so every result location reads as its register or its byte. -/
theorem completionIsVisibleToReads : Obligations.CompletionIsVisibleToReads := by
  intro i s t p nb rem hcap hsink hp hexec
  rw [exec_of_ok hsink hp] at hexec
  cases hexec
  obtain ⟨hnb, hrem⟩ := payload_counts_lt hcap hp
  have hfit := payload_frame_fits hp
  obtain ⟨herrcodeR, hnblkR, hremR, hflenLoR, hflenHiR, hcsumR⟩ :=
    readable_result (s := successCompletion p nb rem s) rfl
  obtain ⟨hbusy, hdone, herr, hwign, hhibit⟩ := statusWord_getLsbD (successCompletion p nb rem s).status
  rw [busRead_status, busRead_register (a := 0x000E) rfl hnblkR, busRead_register (a := 0x000F) rfl hremR,
    busRead_register (a := 0x0010) rfl hflenLoR, busRead_register (a := 0x0011) rfl hflenHiR]
  refine ⟨rfl, hbusy, hdone, herr, hwign, hhibit, busRead_register rfl herrcodeR, ?_, ?_, ?_,
    busRead_register rfl hcsumR, fun j hj => ?_⟩
  · exact Nat.mod_eq_of_lt hnb
  · exact Nat.mod_eq_of_lt hrem
  · exact (half_toNat _).symm.trans (flen_of_fits hcap hfit)
  · exact busRead_fbuf_held (s := successCompletion p nb rem s) hcap (fbufHolds_successCompletion p nb rem s) hfit
      (fbufAddr_toNat hcap (hj.trans_le hfit)) rfl hj

/-- Settles O24: the completion leaves BUSY = 0 and FBUF without a value. -/
theorem errorIsVisibleToReads : Obligations.ErrorIsVisibleToReads := by
  intro s t e hcap hb he hstep
  rw [engineStep_of_error hb he] at hstep
  cases hstep
  obtain ⟨herrcodeR, hnblkR, hremR, hflenLoR, hflenHiR, hcsumR⟩ := readable_result (s := errorCompletion e s) rfl
  obtain ⟨hbusy, hdone, herr, hwign, hhibit⟩ := statusWord_getLsbD (errorCompletion e s).status
  have hlo : (errorCompletion e s).flen.extractLsb' 0 8 = 0x00 := BitVec.extractLsb'_zero
  have hhi : (errorCompletion e s).flen.extractLsb' 8 8 = 0x00 := BitVec.extractLsb'_zero
  rw [hlo] at hflenLoR
  rw [hhi] at hflenHiR
  rw [busRead_status]
  exact ⟨busRead_register (l := .cmd) rfl rfl, busRead_register rfl herrcodeR, busRead_register rfl hnblkR,
    busRead_register rfl hremR, busRead_register rfl hflenLoR, busRead_register rfl hflenHiR,
    busRead_register rfl hcsumR, rfl, hbusy, hdone, herr, hwign, hhibit, fun j hj =>
      busRead_fbuf_unspecified (s := errorCompletion e s) hcap (fbufHolds_errorCompletion e s)
        (fbufAddr_toNat hcap hj) (.inl (Nat.zero_le j)) hj⟩

end Sys2Proof.Machine
end

section
/-! PROOFS. The opcode map of R95 and R96, the operands a command reads (R91), and the host's instructions (R99). -/

namespace Sys2Proof.Machine

/-! ## The decoder and the encoder -/

/-- R95, R96: what the decoder can answer: the command whose code the byte is, or a rejection by name. -/
theorem decode_cases (c : Byte) :
    (∃ i, decode c = .ok i ∧ encode i = c) ∨ decode c = .error (.illegalCode c) := by
  unfold decode
  split
  case h_16 => exact .inr rfl
  all_goals exact .inl ⟨_, rfl, rfl⟩

/-- R90: the decoder inverts the encoder. -/
@[simp] theorem decode_encode (i : Instr) : decode (encode i) = .ok i := by cases i <;> rfl

/-- R95: only a command's own code decodes to it. -/
theorem encode_of_decode {c : Byte} {i : Instr} (h : decode c = .ok i) : encode i = c := by
  rcases decode_cases c with ⟨j, hj, hcode⟩ | hillegal
  · cases hj.symm.trans h
    exact hcode
  · cases hillegal.symm.trans h

/-- R96: the codes of the commands are legal. -/
theorem legalCode (i : Instr) : Laws.LegalCode.Statement i :=
  match i with
  | .line => Laws.LegalCode.line
  | .linex => Laws.LegalCode.linex
  | .course => Laws.LegalCode.course
  | .destid => Laws.LegalCode.destid
  | .ticket => Laws.LegalCode.ticket
  | .time => Laws.LegalCode.time
  | .date => Laws.LegalCode.date
  | .nextv => Laws.LegalCode.nextv
  | .delay => Laws.LegalCode.delay
  | .desttxt => Laws.LegalCode.desttxt
  | .nextstop => Laws.LegalCode.nextstop
  | .addrdest => Laws.LegalCode.addrdest
  | .lineprog => Laws.LegalCode.lineprog
  | .screen => Laws.LegalCode.screen
  | .frameraw => Laws.LegalCode.frameraw

/-- R96: a byte outside 0x01..0x0F is no command's code, so the decoder rejects it. -/
theorem decode_of_illegal {c : Byte} (h : c.toNat = 0 ∨ 0x10 ≤ c.toNat) : decode c = .error (.illegalCode c) := by
  rcases decode_cases c with ⟨i, _, rfl⟩ | hillegal
  · obtain ⟨_, _, hlo, hhi⟩ := legalCode i
    omega
  · exact hillegal

/-- R90: a command is its one byte; the bytes after it are left. -/
theorem decodeBytes_encode (i : Instr) (rest : Bytes) : decodeBytes (encode i :: rest) = .ok (i, rest) := by
  simp [decodeBytes]

theorem decodeBytes_of_illegal {c : Byte} (rest : Bytes) (h : c.toNat = 0 ∨ 0x10 ≤ c.toNat) :
    decodeBytes (c :: rest) = .error (.illegalCode c) := by
  simp [decodeBytes, decode_of_illegal h]

/-- Settles O3: the decoder answers a command only on that command's code. -/
theorem decodeAndEncodeAgree : Obligations.DecodeAndEncodeAgree := ⟨decode_encode, fun _ _ => encode_of_decode⟩

/-- Settles O2: four codes with the bytes after them, and the two ends of the illegal range. -/
theorem wordsDecodeToTheirCommands : Obligations.WordsDecodeToTheirCommands :=
  ⟨decodeBytes_encode .line [], decodeBytes_encode .delay [0xAA], decodeBytes_encode .lineprog [],
    decodeBytes_encode .frameraw [], decodeBytes_of_illegal [] (.inl rfl), decodeBytes_of_illegal [] (.inr le_rfl)⟩

/-! ## Wire prefixes -/

/-- A numeric field that succeeds begins with its telegram's letters. -/
theorem numberField_prefix {s : State} {head p : Bytes} {W nb rem : Nat}
    (h : numberField s head W = .ok p nb rem) : head <+: p := by
  obtain ⟨_, rfl, _, _⟩ := numberField_ok h
  exact List.prefix_append ..

/-- R178: NEXTV succeeds when WSEL gives a width and T0 fits it, and what it then builds. -/
theorem payloadNextv_ok {s : State} {p : Bytes} {nb rem : Nat} (h : payloadNextv s = .ok p nb rem) :
    ∃ W t, widthOf (wsel s) = some W ∧ TextHolds s .t0 t ∧ t.length ≤ W ∧ p = [0x76] ++ ljust W t ∧
      nb = 0 ∧ rem = 0 := by
  obtain ⟨_, h⟩ := checkLen_ok h
  split at h
  · cases h
  · next W hwidth =>
    split at h
    · cases h
    · next hfits =>
      obtain ⟨t, ht, h⟩ := withText_ok h
      cases h
      exact ⟨W, t, hwidth, ht, ht.1 ▸ not_lt.mp hfits, rfl, rfl, rfl⟩

/-- R95: the raw payload of every command begins with the letters of its telegram. -/
theorem wirePrefix_prefix {i : Instr} {s : State} {p : Bytes} {nb rem : Nat} (h : payload i s = .ok p nb rem) :
    wirePrefix i <+: p := by
  cases i with
  | line | linex | course | destid | ticket | time | date => exact numberField_prefix h
  | delay => exact (List.prefix_append [0x78, 0x56] [signByte (sgn s)]).trans (numberField_prefix h)
  | nextv =>
    obtain ⟨W, t, _, _, _, rfl, _, _⟩ := payloadNextv_ok h
    exact List.prefix_append ..
  | desttxt | nextstop | addrdest =>
    obtain ⟨t, _, h⟩ := checkedText_ok h
    cases h
    exact ⟨_, rfl⟩
  | lineprog =>
    obtain ⟨_, h⟩ := checkLen_ok h
    obtain ⟨_, h⟩ := checkLen_ok h
    obtain ⟨_, h⟩ := checkLen_ok h
    obtain ⟨t0, _, h⟩ := withText_ok h
    obtain ⟨t1, _, h⟩ := withText_ok h
    obtain ⟨t2, _, h⟩ := withText_ok h
    cases h
    exact ⟨_, rfl⟩
  | screen =>
    obtain ⟨_, h⟩ := checkLen_ok h
    obtain ⟨_, h⟩ := checkLen_ok h
    obtain ⟨t0, _, h⟩ := withText_ok h
    obtain ⟨t1, _, h⟩ := withText_ok h
    cases h
    exact ⟨_, rfl⟩
  | frameraw => exact List.nil_prefix

/-- Settles O1: the codes are the encoder's, and each payload rule puts its letters first. -/
theorem opcodeMapCodesAndPrefixes : Obligations.OpcodeMapCodesAndPrefixes :=
  ⟨⟨decode_encode .line, decode_encode .linex, decode_encode .course, decode_encode .destid, decode_encode .ticket,
    decode_encode .time, decode_encode .date, decode_encode .nextv, decode_encode .delay, decode_encode .desttxt,
    decode_encode .nextstop, decode_encode .addrdest, decode_encode .lineprog, decode_encode .screen,
    decode_encode .frameraw⟩, fun _ _ _ _ _ => wirePrefix_prefix⟩

/-! ## Illegal codes -/

/-- R128: an error completion has every effect of a failing command and no other. -/
theorem failsFrom_errorCompletion (e : ErrCode) (s : State) :
    FailsFrom (.next (errorCompletion e s)) s (errByte e) :=
  ⟨_, rfl, rfl, rfl, rfl, fbufHolds_errorCompletion e s, memSame_errorCompletion e s, rfl⟩

/-- Settles O4: a CMD write while BUSY = 0 is an issue of any code, and an illegal one decodes to no command. -/
theorem illegalCodeFailsAtCompletion : Obligations.IllegalCodeFailsAtCompletion := by
  refine fun c hc => ⟨fun s hidle => busWrite_register (l := .cmd) rfl hidle, fun s hbusy hcmd => ?_⟩
  subst hcmd
  rw [engineStep_of_illegal hbusy (decode_of_illegal hc)]
  exact failsFrom_errorCompletion .illegalCmd s

/-! ## The operands a command reads -/

/-- A numeric field reads NUM and its head. -/
theorem numberField_congr {s t : State} {g h : Bytes} {W : Nat} (hnum : num s = num t) (hhead : g = h) :
    numberField s g W = numberField t h W := by
  rw [numberField, numberField, hnum, hhead]

/-- NEXTV goes on by the width of WSEL; what follows reads the length and the bytes of T0. -/
theorem payloadNextv_congr {s t : State} (hcap : s.tcap = t.tcap) (hwsel : wsel s = wsel t)
    (hlen : tlen s .t0 = tlen t .t0)
    (hbytes : ∀ j, j < tlen s .t0 → memLookup s.mem (tbufBase .t0 + j) = memLookup t.mem (tbufBase .t0 + j)) :
    payloadNextv s = payloadNextv t := by
  refine checkLen_congr hcap hlen ?_
  rw [hwsel, hlen]
  cases widthOf (wsel t) with
  | none => rfl
  | some W => exact if_congr Iff.rfl rfl (withText_congr hlen hbytes fun _ => rfl)

/-- R91: a payload depends on TEXT_CAP and the operands in the command's row. -/
theorem payload_congr {i : Instr} {s t : State} (h : SameOperands i s t) : payload i s = payload i t := by
  obtain ⟨hcap, haddr, hnum, hsgn, hwsel, htext⟩ := h
  cases i with
  | line | linex | course | destid | ticket | time | date => exact numberField_congr (hnum rfl) rfl
  | delay => exact numberField_congr (hnum rfl) (by rw [hsgn rfl])
  | nextv =>
    obtain ⟨hlen, hbytes⟩ := htext .t0 rfl
    exact payloadNextv_congr hcap (hwsel rfl) hlen hbytes
  | desttxt | nextstop | frameraw =>
    obtain ⟨hlen, hbytes⟩ := htext .t0 rfl
    exact checkLen_congr hcap hlen (withText_congr hlen hbytes fun _ => rfl)
  | addrdest =>
    obtain ⟨hlen, hbytes⟩ := htext .t0 rfl
    exact checkLen_congr hcap hlen (withText_congr hlen hbytes fun _ => by rw [haddr rfl])
  | lineprog =>
    obtain ⟨hlen0, hbytes0⟩ := htext .t0 rfl
    obtain ⟨hlen1, hbytes1⟩ := htext .t1 rfl
    obtain ⟨hlen2, hbytes2⟩ := htext .t2 rfl
    refine checkLen_congr hcap hlen0 (checkLen_congr hcap hlen1 (checkLen_congr hcap hlen2 ?_))
    refine withText_congr hlen0 hbytes0 fun _ => withText_congr hlen1 hbytes1 fun _ => ?_
    exact withText_congr hlen2 hbytes2 fun _ => by rw [haddr rfl]
  | screen =>
    obtain ⟨hlen0, hbytes0⟩ := htext .t0 rfl
    obtain ⟨hlen1, hbytes1⟩ := htext .t1 rfl
    refine checkLen_congr hcap hlen0 (checkLen_congr hcap hlen1 ?_)
    exact withText_congr hlen0 hbytes0 fun _ => withText_congr hlen1 hbytes1 fun _ => by rw [haddr rfl]

/-- Settles O50: both completions are of one payload. -/
theorem commandsReadOnlyTheirOperands : Obligations.CommandsReadOnlyTheirOperands := fun i s t h =>
  ⟨payload i s, exec_eq_complete i s, payload_congr h ▸ exec_eq_complete i t⟩

/-! ## The host's instructions -/

/-- R99: a host step is the instruction at the host's index. -/
theorem hostStep_of_instr {s : State} {i : HostInstr} (h : s.hostProg[s.hostPc]? = some i) :
    hostStep s = hostExec i s := by
  simp [hostStep, h]

theorem hostStep_of_end {s : State} (h : s.hostProg[s.hostPc]? = none) : hostStep s = s := by
  simp [hostStep, h]

theorem hostExec_bnz_taken {s : State} {m : Byte} (l : Nat) (h : s.h &&& m ≠ 0) :
    hostExec (.bnz l m) s = { s with hostPc := l } := by
  simp only [hostExec, if_pos h]

theorem hostExec_bnz_not_taken {s : State} {m : Byte} (l : Nat) (h : s.h &&& m = 0) :
    hostExec (.bnz l m) s = { s with hostPc := s.hostPc + 1 } := by
  simp only [hostExec, if_neg (not_not_intro h)]

/-- Settles O27: each host instruction in turn, `bnz` by its condition. -/
theorem hostInstructionsAct : Obligations.HostInstructionsAct := fun _ =>
  ⟨fun _ _ hwr => hostStep_of_instr hwr, fun _ hrd => hostStep_of_instr hrd,
    fun l _ hbnz hset => (hostStep_of_instr hbnz).trans (hostExec_bnz_taken l hset),
    fun l _ hbnz hclear => (hostStep_of_instr hbnz).trans (hostExec_bnz_not_taken l hclear),
    fun hend => hend.elim hostStep_of_instr hostStep_of_end⟩

end Sys2Proof.Machine
end

section
/-! PROOFS. The command cycle (R120 to R132): the busy lock as the host meets it, what a command that waits keeps, when a
completion faults, the sizes of frames, and what a step adds to OUT. -/

namespace Sys2Proof.Machine

/-! ## The output history -/

/-- Settles O57: each operation that adds to OUT adds a legal entry. -/
theorem stepKeepsHistoryLegal : Obligations.StepKeepsHistoryLegal := fun _ _ => step_keeps_historyLegal

/-- R282: a reset adds nothing to OUT, or one truncated entry while a command is pending. -/
theorem cutFrame_cases (n : Nat) (s : State) :
    cutFrame n s = [] ∨
      (s.status.busy = true ∧ ∃ f, cutFrame n s = [{ bytes := f, truncated := true }]) := by
  unfold cutFrame
  split
  · next hbusy =>
    split
    · split
      · exact .inl rfl
      · exact .inr ⟨hbusy, _, rfl⟩
    · exact .inl rfl
    · exact .inl rfl
  · exact .inl rfl

/-- R127: the host hands nothing to the sink. -/
theorem hostStep_out (s : State) : (hostStep s).out = s.out :=
  hostStep_keeps (P := fun u => u.out = s.out)
    (ext := fun _ _ _ _ _ _ _ _ _ _ hout _ _ hu => hout ▸ hu)
    (h0 := rfl) (hw := fun _ => rfl) (hi := fun _ _ => rfl) (ht := fun _ _ _ _ _ => rfl)

/-- Settles O53: of the turns only a successful completion and a reset write OUT. -/
theorem outputOnlyGrows : Obligations.OutputOnlyGrows := by
  intro s t hstep
  obtain ⟨ts, ⟨_, rfl⟩ | ⟨_, _, rfl⟩ | ⟨_, hbusy, hc⟩ | ⟨b, _, rfl⟩ | ⟨n, hreset, rfl⟩⟩ := step_next hstep
  · exact .inl (hostStep_out _)
  · exact .inl rfl
  · obtain ⟨e, _, rfl⟩ | ⟨p, nb, rem, _, _, rfl⟩ | ⟨_, _, rfl⟩ := complete_next hc
    · exact .inl rfl
    · exact .inr (.inl ⟨frame p, rfl, hbusy, rfl, rfl, rfl⟩)
    · exact .inl rfl
  · exact .inl rfl
  · rw [resetBlock_out]
    obtain hcut | ⟨hbusy, f, hcut⟩ := cutFrame_cases n { s with turns := ts }
    · exact .inl (by rw [hcut, List.append_nil])
    · exact .inr (.inr ⟨f, by rw [hcut], hbusy, n, hreset⟩)

/-! ## Issue and the engine's turn -/

/-- Settles O21: CMD is a register, and its store is the issue. -/
theorem commandIssue : Obligations.CommandIssue := by
  intro s v hidle
  have hissue : busWrite 0x0000 v s = issue v s := busWrite_register (l := .cmd) rfl hidle
  rw [hissue]
  exact ⟨rfl, rfl⟩

theorem payloadOfCmd_of_decoded {s : State} {i : Instr} (hi : decode s.cmd = .ok i) :
    payloadOfCmd s = payload i s := by
  simp [payloadOfCmd, hi]

/-- Settles O5: by the list of turns; with none listed the engine's step is enabled. -/
theorem stepRunsDecodedCommand : Obligations.StepRunsDecodedCommand := by
  intro s i hbusy hi
  refine ⟨fun ts hlisted => ?_, fun hno hready => ?_⟩
  · rw [step_of_turn hlisted]
    exact engineStep_of_decoded hbusy hi
  · rw [← payloadOfCmd_of_decoded hi] at hready
    have henabled : engineEnabled s = true := engineEnabled_iff.mpr ⟨hbusy, hready⟩
    rw [step_of_no_turn hno, defaultTurn, if_pos henabled]
    exact engineStep_of_decoded hbusy hi

/-! ## The busy lock -/

/-- R121: the register addresses of the busy lock name busy-locked registers. -/
theorem registerAt_locked : ∀ n ≤ 0x000D, n = 0x0000 ∨ 0x0003 ≤ n →
    (registerAt n).any busyLocked = true := by decide

/-- R121: a busy-locked address names a busy-locked location. -/
theorem busyLocked_of_lockedAddr {cap : Nat} {a : Addr} (hcap : cap ≤ 0x400) (h : LockedAddr cap a.toNat) :
    busyLocked (locate cap a) = true := by
  have hregister (hle : a.toNat ≤ 0x000D) (hn : a.toNat = 0x0000 ∨ 0x0003 ≤ a.toNat) :
      busyLocked (locate cap a) = true := by
    obtain ⟨l, hl, hlocked⟩ := (Option.any_eq_true _ _).mp (registerAt_locked _ hle hn)
    rwa [locate_register hl]
  obtain hcmd | ⟨hlo, hhi⟩ | ⟨k, hlo, hhi⟩ := h
  · exact hregister (by omega) (.inl hcmd)
  · exact hregister hhi (.inr hlo)
  · obtain ⟨i, hi⟩ := Nat.exists_eq_add_of_le hlo
    rw [locate_tbuf hcap (by omega) hi]
    rfl

/-- Settles O16: by the class of the address. -/
theorem busyLockIgnoresWrites : Obligations.BusyLockIgnoresWrites := by
  intro s a v hcap hbusy
  refine ⟨fun hlocked => ?_, fun hstatus => ?_, ?_⟩
  · exact busWrite_locked rfl (busyLocked_of_lockedAddr hcap.le_window hlocked) hbusy
  · exact busWrite_register_unlocked (l := .status) (by rw [hstatus]; rfl) rfl
  · rintro (hreadOnly | hreserved)
    · exact (reservedAndReadOnlyIgnoreWrites s hcap a).2 hreadOnly v
    · exact (bus_reserved hcap hreserved).2 v

/-! ## Reads while busy -/

/-- R122: the result registers' addresses name result locations. -/
theorem registerAt_result : ∀ n ≤ 0x0012, n = 0x0002 ∨ 0x000E ≤ n → (registerAt n).any resultLoc = true := by decide

/-- R122: a result address names a result location. -/
theorem resultLoc_of_resultAddr {cap : Nat} {a : Addr} (hcap : cap ≤ 0x400) (h : ResultAddr cap a.toNat) :
    resultLoc (locate cap a) = true := by
  have hregister (hle : a.toNat ≤ 0x0012) (hn : a.toNat = 0x0002 ∨ 0x000E ≤ a.toNat) :
      resultLoc (locate cap a) = true := by
    obtain ⟨l, hl, hresult⟩ := (Option.any_eq_true _ _).mp (registerAt_result _ hle hn)
    rwa [locate_register hl]
  obtain herrcode | ⟨hlo, hhi⟩ | ⟨hlo, hhi⟩ := h
  · exact hregister (by omega) (.inl herrcode)
  · exact hregister hhi (.inr hlo)
  · obtain ⟨i, hi⟩ := Nat.exists_eq_add_of_le hlo
    rw [locate_fbuf hcap (by omega) hi]
    rfl

/-- R122: while BUSY = 1 no rule gives a result location a value. -/
theorem readable_result_busy {s : State} {l : Loc} (hbusy : s.status.busy = true) (hl : resultLoc l = true) :
    readable s l = none := by
  cases l with
  | errcode | nblk | rem | flenLo | flenHi | csum | fbuf => exact if_pos hbusy
  | cmd | status | addr | argf | num0 | num1 | num2 | tlenLo | tlenHi | tcapLo | tcapHi | tbuf | reserved => cases hl

/-- Settles O18: by the location each address names. -/
theorem readsWhileBusy : Obligations.ReadsWhileBusy := by
  intro s a hcap hbusy
  have hresult (h : ResultAddr (textCap s) a.toNat) :
      busRead a s = (Config.drawByte s.draws, { s with draws := s.draws + 1 }) :=
    busRead_of_unreadable rfl (readable_result_busy hbusy (resultLoc_of_resultAddr hcap.le_window h))
  exact ⟨hresult, busRead_register (l := .cmd) rfl rfl, busRead_status s, busRead_register (l := .addr) rfl rfl,
    busRead_register (l := .argf) rfl rfl, busRead_register (l := .num0) rfl rfl,
    busRead_register (l := .num1) rfl rfl, busRead_register (l := .num2) rfl rfl,
    busRead_register rfl (readable_tlenLo s .t0), busRead_register rfl (readable_tlenHi s .t0),
    busRead_register rfl (readable_tlenLo s .t1), busRead_register rfl (readable_tlenHi s .t1),
    busRead_register rfl (readable_tlenLo s .t2), busRead_register rfl (readable_tlenHi s .t2),
    busRead_register (l := .tcapLo) rfl rfl, busRead_register (l := .tcapHi) rfl rfl,
    fun _ _ _ hi ha hv => busRead_of_readable (locate_tbuf hcap.le_window hi ha) hv⟩

/-! ## Sizes of frames -/

/-- R141, R204: the remainder of a record is below 16, so it is one symbol. -/
theorem hex_remainder_length (n : Nat) : (hex (countByte (n % 16))).length = 1 := by
  refine hex_length_of_lt ?_
  rw [countByte, BitVec.toNat_ofNat]
  omega

/-- R131, R204: the general bound of R131 is LINEPROG's, met because its remainder is one symbol. -/
theorem payloadLineprog_length_le_general {s : State} {p : Bytes} {nb rem : Nat}
    (h : payloadLineprog s = .ok p nb rem) : p.length ≤ 3 * textCap s + 10 := by
  obtain ⟨hl0, h⟩ := checkLen_ok h
  obtain ⟨hl1, h⟩ := checkLen_ok h
  obtain ⟨hl2, h⟩ := checkLen_ok h
  obtain ⟨t0, ht0, h⟩ := withText_ok h
  obtain ⟨t1, ht1, h⟩ := withText_ok h
  obtain ⟨t2, ht2, h⟩ := withText_ok h
  cases h
  have hlen0 := ht0.length_le hl0
  have hlen1 := ht1.length_le hl1
  have hlen2 := ht2.length_le hl2
  have haddr := hex_length_le s.addr
  have hcount := hex_length_le (countByte (ceilDiv (lineprogRecord t0 t1 t2).length 16))
  have hrem := hex_remainder_length (lineprogRecord t0 t1 t2).length
  have hrec := lineprogRecord_length t0 t1 t2
  simp only [List.length_append, List.length_cons, List.length_nil]
  omega

/-- The rows of R131 without the two bytes the Framer appends: the largest payload of each command. -/
def payloadBound (cap : Nat) : Instr → Nat
  | .line | .destid => 4
  | .linex | .time => 5
  | .course => 3
  | .ticket => 7
  | .date | .delay => 6
  | .nextv => 25
  | .desttxt => cap + 19
  | .nextstop => cap + 7
  | .addrdest => cap + 6
  | .lineprog => 3 * cap + 10
  | .screen => 2 * cap + 24
  | .frameraw => cap

/-- R131: no payload exceeds its command's row. -/
theorem payload_length_le_bound {i : Instr} {s : State} {p : Bytes} {nb rem : Nat} (h : payload i s = .ok p nb rem) :
    p.length ≤ payloadBound (textCap s) i := by
  cases i with
  | line | linex | course | destid | ticket | time | date | delay => exact (numberField_length h).le
  | nextv => exact payloadNextv_length_le h
  | desttxt => exact payloadDesttxt_length_le h
  | nextstop => exact payloadNextstop_length_le h
  | addrdest => exact payloadAddrdest_length_le h
  | lineprog => exact payloadLineprog_length_le_general h
  | screen => exact payloadScreen_length_le h
  | frameraw => exact payloadFrameraw_length_le h

/-- R131: LINEPROG's row is the largest, for every legal TEXT_CAP. -/
theorem payloadBound_le {cap : Nat} (hcap : 16 ≤ cap) (i : Instr) : payloadBound cap i ≤ 3 * cap + 10 := by
  cases i <;> simp only [payloadBound] <;> omega

/-- Settles O38: each row is its command's bound and the two bytes of the Framer. -/
theorem frameSizeBounds : Obligations.FrameSizeBounds := by
  intro i s p nb rem hcap hp
  have hrow : (frame p).length ≤ payloadBound (textCap s) i + 2 := by
    rw [frame_length]
    exact Nat.add_le_add_right (payload_length_le_bound hp) 2
  have hgeneral : (frame p).length ≤ 3 * textCap s + 12 :=
    hrow.trans (Nat.add_le_add_right (payloadBound_le hcap.1 i) 2)
  have hof (j : Instr) (hi : i = j) : (frame p).length ≤ payloadBound (textCap s) j + 2 := hi ▸ hrow
  have htwo : 2 ≤ (frame p).length := by
    rw [frame_length]
    omega
  have hfits : (frame p).length < frameCap (textCap s) := by
    rw [frameCap]
    omega
  exact ⟨htwo, hgeneral, hfits, fun hi => hi.elim (hof .line) (hof .destid), fun hi => hi.elim (hof .linex) (hof .time),
    hof .course, hof .ticket, fun hi => hi.elim (hof .date) (hof .delay), hof .nextv, hof .desttxt, hof .nextstop,
    hof .addrdest, hof .screen, hof .frameraw⟩

/-! ## Unwritten texts -/

/-- R257: the length check comes before the unwritten bytes. -/
theorem checkLen_eq_unwritten {s : State} {k : TextIdx} {b : Built} :
    checkLen s k b = .unwritten ↔ tlen s k ≤ textCap s ∧ b = .unwritten := by
  obtain ⟨hgt, h⟩ | ⟨hle, h⟩ := checkLen_cases s k b <;> rw [h]
  · simp [not_le.mpr hgt]
  · simp [hle]

/-- R129: reading a text meets an unwritten byte in it, or later, where that does not depend on what the text is. -/
theorem withText_eq_unwritten {s : State} {k : TextIdx} {f : Bytes → Built} {P : Prop}
    (hf : ∀ t, f t = .unwritten ↔ P) : withText s k f = .unwritten ↔ TextUnwritten s k ∨ P := by
  obtain ⟨t, ht, h⟩ | ⟨hu, h⟩ := withText_cases s k f <;> rw [h]
  · have hwritten : ¬TextUnwritten s k := by
      rw [← readText_eq_none, readText_eq_some.mpr ht]
      exact nofun
    simp [hf, hwritten]
  · simp [hu]

/-- R129: the last text of a command. -/
theorem withLastText_eq_unwritten {s : State} {k : TextIdx} {f : Bytes → Built}
    (hf : ∀ t, f t ≠ .unwritten) : withText s k f = .unwritten ↔ TextUnwritten s k := by
  simp [withText_eq_unwritten (P := False) fun t => iff_false_intro (hf t)]

theorem numberField_ne_unwritten (s : State) (head : Bytes) (W : Nat) : numberField s head W ≠ .unwritten := by
  obtain ⟨_, h⟩ | ⟨_, h⟩ := numberField_cases s head W <;> rw [h] <;> exact nofun

/-- R129, R257: a command that checks and reads one text. -/
theorem checkedText_eq_unwritten {s : State} {k : TextIdx} {f : Bytes → Built} (hf : ∀ t, f t ≠ .unwritten) :
    checkLen s k (withText s k f) = .unwritten ↔ tlen s k ≤ textCap s ∧ TextUnwritten s k := by
  rw [checkLen_eq_unwritten, withLastText_eq_unwritten hf]

/-- R178, R257: NEXTV reads its text after the checks of its length, of WSEL and of its width. -/
theorem payloadNextv_eq_unwritten {s : State} :
    payloadNextv s = .unwritten ↔
      tlen s .t0 ≤ textCap s ∧ (∃ W, widthOf (wsel s) = some W ∧ tlen s .t0 ≤ W) ∧ TextUnwritten s .t0 := by
  rw [payloadNextv, checkLen_eq_unwritten]
  refine and_congr_right fun _ => ?_
  cases widthOf (wsel s) with
  | none => simp
  | some W =>
    dsimp only
    by_cases hfits : tlen s .t0 ≤ W
    · rw [if_neg (not_lt.mpr hfits)]
      refine Iff.trans (withLastText_eq_unwritten fun _ => nofun) ?_
      simp [hfits]
    · rw [if_pos (not_le.mp hfits)]
      simp [hfits]

/-- R129, R204, R257: LINEPROG checks its three lengths before it reads a text. -/
theorem payloadLineprog_eq_unwritten {s : State} :
    payloadLineprog s = .unwritten ↔
      tlen s .t0 ≤ textCap s ∧ tlen s .t1 ≤ textCap s ∧ tlen s .t2 ≤ textCap s ∧
        (TextUnwritten s .t0 ∨ TextUnwritten s .t1 ∨ TextUnwritten s .t2) := by
  rw [payloadLineprog, checkLen_eq_unwritten, checkLen_eq_unwritten, checkLen_eq_unwritten]
  refine and_congr_right' (and_congr_right' (and_congr_right' ?_))
  exact withText_eq_unwritten fun _ => withText_eq_unwritten fun _ => withLastText_eq_unwritten fun _ => nofun

/-- R129, R205, R257: SCREEN checks its two lengths before it reads a text. -/
theorem payloadScreen_eq_unwritten {s : State} :
    payloadScreen s = .unwritten ↔
      tlen s .t0 ≤ textCap s ∧ tlen s .t1 ≤ textCap s ∧ (TextUnwritten s .t0 ∨ TextUnwritten s .t1) := by
  rw [payloadScreen, checkLen_eq_unwritten, checkLen_eq_unwritten]
  refine and_congr_right' (and_congr_right' ?_)
  exact withText_eq_unwritten fun _ => withLastText_eq_unwritten fun _ => nofun

theorem exists_textIdx {P : TextIdx → Prop} : (∃ k, P k) ↔ P .t0 ∨ P .t1 ∨ P .t2 :=
  ⟨fun ⟨k, hk⟩ => by cases k <;> simp [hk], by rintro (h | h | h) <;> exact ⟨_, h⟩⟩

theorem forall_textIdx {P : TextIdx → Prop} : (∀ k, P k) ↔ P .t0 ∧ P .t1 ∧ P .t2 :=
  ⟨fun h => ⟨h _, h _, h _⟩, fun ⟨h0, h1, h2⟩ k => by cases k <;> assumption⟩

/-- R91, R129, R257: a payload meets an unwritten byte when the lengths in the command's row pass their check, for NEXTV the
text fits the field, and a text in the row has such a byte. -/
theorem payload_eq_unwritten {i : Instr} {s : State} :
    payload i s = .unwritten ↔
      (∀ k, readsText i k = true → tlen s k ≤ textCap s) ∧
        (i = .nextv → ∃ W, widthOf (wsel s) = some W ∧ tlen s .t0 ≤ W) ∧
        ∃ k, readsText i k = true ∧ TextUnwritten s k := by
  rw [exists_textIdx, forall_textIdx]
  cases i with
  | line | linex | course | destid | ticket | time | date | delay =>
    exact iff_of_false (numberField_ne_unwritten s _ _) (by simp [readsText])
  | nextv =>
    refine payloadNextv_eq_unwritten.trans ?_
    simp [readsText]
  | desttxt | nextstop | addrdest | frameraw =>
    refine Iff.trans (b := tlen s .t0 ≤ textCap s ∧ TextUnwritten s .t0) (checkedText_eq_unwritten fun _ => nofun) ?_
    simp [readsText]
  | lineprog =>
    refine payloadLineprog_eq_unwritten.trans ?_
    simp [readsText, and_assoc]
  | screen =>
    refine payloadScreen_eq_unwritten.trans ?_
    simp [readsText, and_assoc]

/-- R129: the completion of such a payload, once the sink accepts. -/
theorem complete_unwritten {s : State} (hsink : s.sinkReady = true) : complete .unwritten s = .fault .unwrittenText :=
  if_pos hsink

/-- Settles O48: the command's payload meets the unwritten byte. -/
theorem unwrittenTextFaults : Obligations.UnwrittenTextFaults := by
  intro i s hunwritten hsink hlengths hnextv
  rw [exec_eq_complete, payload_eq_unwritten.mpr ⟨hlengths, hnextv, hunwritten⟩, complete_unwritten hsink]

/-- R123, R129: a step that answers no next state is the engine's, in a completion that meets an unwritten text byte. -/
theorem step_stops (s : State) :
    (∃ t, step s = .next t) ∨
      (s.status.busy = true ∧ payloadOfCmd s = .unwritten ∧ step s = .fault .unwrittenText) := by
  have hengine (ts : List Turn) : (∃ t, engineStep { s with turns := ts } = .next t) ∨
      (s.status.busy = true ∧ payloadOfCmd s = .unwritten ∧
        engineStep { s with turns := ts } = .fault .unwrittenText) := by
    rw [engineStep_eq]
    cases hbusy : s.status.busy with
    | false => exact .inl ⟨_, rfl⟩
    | true =>
      rw [if_pos rfl]
      cases hc : complete (payloadOfCmd { s with turns := ts }) { s with turns := ts } with
      | next t => exact .inl ⟨t, rfl⟩
      | fault f =>
        obtain ⟨hunwritten, _, rfl⟩ := complete_fault hc
        exact .inr ⟨rfl, hunwritten, rfl⟩
      | refused r => exact absurd hc (complete_ne_refused _ _ r)
  rw [step, nextTurn_state]
  cases (nextTurn s).1 with
  | host | sink | reset => exact .inl ⟨_, rfl⟩
  | engine => exact hengine _

/-- R129: a pending command whose payload meets an unwritten byte reads a text that has one. -/
theorem not_textsWritten_of_unwritten {s : State} (h : payloadOfCmd s = .unwritten) : ¬TextsWritten s := by
  intro hwritten
  unfold payloadOfCmd at h
  split at h
  · next i hi =>
    obtain ⟨_, _, k, hreads, hunwritten⟩ := payload_eq_unwritten.mp h
    exact hwritten i k hi hreads hunwritten
  · cases h

/-- Settles O7: the one stop of a step is the completion of a payload with an unwritten byte. -/
theorem onlyUnwrittenTextFaults : Obligations.OnlyUnwrittenTextFaults := by
  intro s
  obtain ⟨t, hnext⟩ | ⟨hbusy, hunwritten, hfault⟩ := step_stops s
  · rw [hnext]
    exact ⟨fun _ => nofun, fun _ => nofun⟩
  · refine ⟨fun r => by rw [hfault]; exact nofun, fun f hf => ?_⟩
    cases hfault.symm.trans hf
    exact ⟨rfl, hbusy, not_textsWritten_of_unwritten hunwritten⟩

/-! ## A step while a command is pending -/

/-- R124, R132: `t` is `s` but for WIGN, the sink, the host, the turns and the count of draws: the command pending in `s`, its
operands, its texts and the results are those of `t`. -/
def SamePending (s t : State) : Prop :=
  t = { s with
    status := { s.status with wign := t.status.wign }, sinkReady := t.sinkReady, h := t.h, hostPc := t.hostPc
    listing := t.listing, turns := t.turns, draws := t.draws }

/-- R132: what is pending keeps its payload. -/
theorem SamePending.payloadOfCmd_eq {s t : State} (h : SamePending s t) : payloadOfCmd t = payloadOfCmd s := by
  rw [h]
  rfl

theorem hostStep_samePending {s : State} (hbusy : s.status.busy = true) :
    SamePending s (hostStep s) ∧ (hostStep s).sinkReady = s.sinkReady := by
  obtain ⟨w, d, h⟩ := hostStep_busy hbusy
  rw [SamePending, h]
  exact ⟨rfl, rfl⟩

/-- What a step other than a reset can do while a command is pending: leave the command pending, the sink as it was but for
a sink turn, or complete it. -/
theorem step_busy {s t : State} (hbusy : s.status.busy = true) (hreset : ∀ n, (nextTurn s).1 ≠ .reset n)
    (hstep : step s = .next t) :
    (SamePending s t ∧ (t.sinkReady = s.sinkReady ∨ (nextTurn s).1 = .sink t.sinkReady)) ∨
    ∃ ts, (∃ e, payloadOfCmd s = .error e ∧ t = { errorCompletion e s with turns := ts }) ∨
      ∃ p nb rem, payloadOfCmd s = .ok p nb rem ∧ s.sinkReady = true ∧
        t = { successCompletion p nb rem s with turns := ts } := by
  obtain ⟨ts, ⟨_, rfl⟩ | ⟨_, hidle, _⟩ | ⟨_, _, hc⟩ | ⟨b, hturn, rfl⟩ | ⟨n, hturn, _⟩⟩ := step_next hstep
  · obtain ⟨hsame, hsink⟩ := hostStep_samePending (s := { s with turns := ts }) hbusy
    exact .inl ⟨hsame, .inl hsink⟩
  · rw [hbusy] at hidle
    cases hidle
  · obtain ⟨e, he, rfl⟩ | ⟨p, nb, rem, hp, hsink, rfl⟩ | ⟨_, _, rfl⟩ := complete_next hc
    · exact .inr ⟨ts, .inl ⟨e, he, rfl⟩⟩
    · exact .inr ⟨ts, .inr ⟨p, nb, rem, hp, hsink, rfl⟩⟩
    · exact .inl ⟨rfl, .inl rfl⟩
  · exact .inl ⟨rfl, .inr hturn⟩
  · exact absurd hturn (hreset n)

/-- R123: a completion that is no error waits while the sink accepts nothing. -/
theorem complete_stalled {b : Built} {s : State} (hsink : s.sinkReady = false) (hwaits : b.isError = false) :
    complete b s = .next s := by
  cases b with
  | error e => cases hwaits
  | ok p nb rem | unwritten => simp [complete, hsink]

/-- Settles O51: while the sink accepts nothing neither completion of `step_busy` can happen, and the sink stays as it is. -/
theorem sinkStallHoldsTheCompletion : Obligations.SinkStallHoldsTheCompletion := by
  refine ⟨fun i s hsink hwaits => ?_, fun i s e he => ?_, fun s t hbusy hsink hwaits hreset hturn hstep => ?_⟩
  · rw [exec_eq_complete, complete_stalled hsink hwaits]
  · rw [FailsWith, exec_eq_complete, he]
    exact failsFrom_errorCompletion e s
  · obtain ⟨hsame, hsinkTurn⟩ | ⟨ts, ⟨e, he, _⟩ | ⟨p, nb, rem, _, hready, _⟩⟩ := step_busy hbusy hreset hstep
    · have hstill : t.sinkReady = false := by
        rcases hsinkTurn with h | h
        · rw [h, hsink]
        · cases hready : t.sinkReady with
          | false => rfl
          | true => exact absurd (hready ▸ h) hturn
      refine ⟨?_, hstill, by rw [hsame.payloadOfCmd_eq, hwaits], ?_, ?_⟩ <;> rw [hsame]
      exact hbusy
    · rw [he] at hwaits
      cases hwaits
    · rw [hsink] at hready
      cases hready

/-- R36: an address below FBUF is outside its window. -/
theorem inFbuf_eq_false_of_lt {cap a : Nat} (h : a < 0x2000) : inFbuf cap a = false := by
  rw [← Bool.not_eq_true, inFbuf_iff]
  omega

/-- Settles O52: what waits is the same but for what no command reads, and a completion writes no operand and no byte outside
FBUF. -/
theorem operandsStableWhileBusy : Obligations.OperandsStableWhileBusy := by
  intro s t hbusy hreset hstep
  obtain ⟨hsame, _⟩ | ⟨ts, ⟨e, _, rfl⟩ | ⟨p, nb, rem, hp, _, rfl⟩⟩ := step_busy hbusy hreset hstep
  · have hidle (h : t.status.busy = false) : t.status.done = true := by
      rw [hsame] at h
      cases hbusy.symm.trans h
    refine ⟨?_, ?_, ?_, ?_, ?_, ?_, fun _ => hsame.payloadOfCmd_eq, hidle⟩ <;> rw [hsame]
    · rfl
    · exact fun k => by cases k <;> rfl
    · exact fun _ _ => rfl
  · exact ⟨rfl, rfl, rfl, rfl, fun k => by cases k <;> rfl,
      fun a ha => memSame_errorCompletion e s a (inFbuf_eq_false_of_lt ha), nofun, fun _ => rfl⟩
  · exact ⟨rfl, rfl, rfl, rfl, fun k => by cases k <;> rfl,
      fun a ha => memSame_successCompletion p nb rem s (frame_length_le_frameCap hp) a (inFbuf_eq_false_of_lt ha),
      nofun, fun _ => rfl⟩

end Sys2Proof.Machine
end

section
/-! PROOFS. The codec (R140 to R155): hex and decimal digits, fields, the charset remap, the block padder, and the
counts that commands hand to `hex`. -/

namespace Sys2Proof.Machine

/-! ## Digits -/

/-- The number that a string of symbols 0x30 + digit denotes in a base, most significant digit first. -/
def digitsValue (base : Nat) (q : Bytes) : Nat := q.foldl (fun v b => base * v + (b.toNat - 0x30)) 0

theorem digitsValue_concat (base : Nat) (q : Bytes) (b : Byte) :
    digitsValue base (q ++ [b]) = base * digitsValue base q + (b.toNat - 0x30) := by
  simp [digitsValue]

/-- The symbol of a digit is not cut by its 8 bits. -/
theorem symbol_toNat {d : Nat} (hd : d < 16) : (BitVec.ofNat 8 (0x30 + d)).toNat = 0x30 + d := by
  rw [BitVec.toNat_ofNat, Nat.mod_eq_of_lt (by omega)]

/-! ## The hex-nibble encoding -/

theorem hexsym_eq (n : BitVec 4) : hexsym n = BitVec.ofNat 8 (0x30 + n.toNat) := by
  rw [hexsym, ← BitVec.ofNat_toNat, BitVec.ofNat_add]
  rfl

theorem hexsym_toNat (n : BitVec 4) : (hexsym n).toNat = 0x30 + n.toNat := by
  rw [hexsym_eq, symbol_toNat n.isLt]

theorem highNibble_toNat (v : Byte) : (v.extractLsb' 4 4).toNat = v.toNat / 16 := by
  rw [BitVec.extractLsb'_toNat, Nat.shiftRight_eq_div_pow]
  omega

theorem lowNibble_toNat (v : Byte) : (v.extractLsb' 0 4).toNat = v.toNat % 16 := by
  rw [BitVec.extractLsb'_toNat, Nat.shiftRight_zero]

theorem highNibble_eq_zero_iff (v : Byte) : v.extractLsb' 4 4 = 0 ↔ v.toNat < 16 := by
  rw [← BitVec.toNat_inj, highNibble_toNat]
  exact Nat.div_eq_zero_iff_lt (by decide)

/-- R141: a byte below 16 is one symbol. -/
theorem hex_of_lt {v : Byte} (h : v.toNat < 16) : hex v = [BitVec.ofNat 8 (0x30 + v.toNat)] := by
  rw [hex, if_neg (not_not_intro ((highNibble_eq_zero_iff v).mpr h)), hexsym_eq, lowNibble_toNat, Nat.mod_eq_of_lt h]

/-- R141: any other byte is the symbols of its high and its low nibble. -/
theorem hex_of_ge {v : Byte} (h : 16 ≤ v.toNat) :
    hex v = [BitVec.ofNat 8 (0x30 + v.toNat / 16), BitVec.ofNat 8 (0x30 + v.toNat % 16)] := by
  rw [hex, if_pos (fun h0 => h.not_gt ((highNibble_eq_zero_iff v).mp h0)), hexsym_eq, hexsym_eq, highNibble_toNat,
    lowNibble_toNat]

/-- R142: every byte of `hex` is the symbol of a nibble. -/
theorem mem_hex {v b : Byte} (hb : b ∈ hex v) : ∃ n : BitVec 4, b = hexsym n := by
  unfold hex at hb
  split at hb
  · rw [List.mem_pair] at hb
    exact hb.elim (⟨_, ·⟩) (⟨_, ·⟩)
  · exact ⟨_, List.mem_singleton.mp hb⟩

/-- R142: the symbols of a byte, read in base 16, give the byte back. -/
theorem digitsValue_hex (v : Byte) : digitsValue 16 (hex v) = v.toNat := by
  by_cases h : v.toNat < 16
  · rw [hex_of_lt h, digitsValue, List.foldl_cons, List.foldl_nil, symbol_toNat h]
    omega
  · rw [hex_of_ge (by omega), digitsValue, List.foldl_cons, List.foldl_cons, List.foldl_nil,
      symbol_toNat (by omega), symbol_toNat (by omega)]
    omega

/-- Settles O28: the symbols of both nibbles, and the value they denote, which makes `hex` injective. -/
theorem hexNibbleEncoding : Obligations.HexNibbleEncoding := by
  refine ⟨fun v => ⟨hex_of_lt, hex_of_ge, fun b hb => ?_⟩, fun v w h => BitVec.eq_of_toNat_eq ?_⟩
  · obtain ⟨n, rfl⟩ := mem_hex hb
    rw [hexsym_toNat]
    omega
  · rw [← digitsValue_hex v, h, digitsValue_hex w]

/-! ## The decimal field -/

/-- R143: the digit of 10^(W−1−j) stands at index `j`. -/
theorem dec_getElem_toNat {W n j : Nat} (h : j < (dec W n).length) :
    ((dec W n)[j]).toNat = 0x30 + n / 10 ^ (W - 1 - j) % 10 := by
  simp only [dec, List.getElem_map, List.getElem_range]
  exact symbol_toNat (by omega)

/-- A longer field is the field of the number without its last digit, and that digit. -/
theorem dec_succ (W n : Nat) : dec (W + 1) n = dec W (n / 10) ++ [BitVec.ofNat 8 (0x30 + n % 10)] := by
  simp only [dec, List.range_succ, List.map_append, List.map_singleton]
  congr 1
  · refine List.map_congr_left fun j hj => ?_
    rw [List.mem_range] at hj
    have hexp : W + 1 - 1 - j = (W - 1 - j) + 1 := by omega
    rw [hexp, Nat.pow_succ', Nat.div_div_eq_div_mul]
  · simp

/-- R143: a field of W digits denotes its number modulo 10^W. -/
theorem digitsValue_dec (W n : Nat) : digitsValue 10 (dec W n) = n % 10 ^ W := by
  induction W generalizing n with
  | zero => exact (Nat.mod_one n).symm
  | succ W ih =>
    rw [dec_succ, digitsValue_concat, ih, symbol_toNat (by omega), Nat.pow_succ', Nat.mod_mul]
    omega

/-- Settles O29: each digit from its index, and the number by induction on the width. -/
theorem decimalFieldDenotesNumber : Obligations.DecimalFieldDenotesNumber := by
  refine fun W n => ⟨dec_length' W n, fun b hb => ?_, fun j h => dec_getElem_toNat h,
    fun hn => (digitsValue_dec W n).trans (Nat.mod_eq_of_lt hn)⟩
  obtain ⟨j, hj, rfl⟩ := List.getElem_of_mem hb
  rw [dec_getElem_toNat hj]
  omega

/-! ## The left-justified field -/

/-- Settles O30: the spaces fill what the text leaves of the field. -/
theorem ljustFillsTheField : Obligations.LjustFillsTheField := by
  intro W s hW
  refine ⟨?_, List.prefix_append _ _, fun j hlo hhi => ?_, fun h => ?_⟩
  · rw [ljust_length, max_eq_right hW]
  · rw [ljust, List.getElem?_append_right hlo, List.getElem?_replicate_of_lt (by omega), chSP]
  · rw [ljust, h, Nat.sub_self, List.replicate_zero, List.append_nil]

/-! ## The charset remap -/

/-- R146: a byte that is no input of the table is unaltered. -/
theorem remapByte_of_notMem {b : Byte} (h : b ∉ remapTable.map Prod.fst) : remapByte b = b := by
  have hnone : remapTable.lookup b = none :=
    List.lookup_eq_none_iff.mpr fun e he => bne_iff_ne.mpr fun hbe => h (hbe ▸ List.mem_map_of_mem he)
  rw [remapByte, hnone, Option.getD_none]

/-- R148: no output of the table is an input of it, so a second remap alters nothing. -/
theorem remapByte_remapByte (b : Byte) : remapByte (remapByte b) = remapByte b := by
  by_cases h : b ∈ remapTable.map Prod.fst
  · have houtputs : ∀ c ∈ remapTable.map Prod.fst, remapByte c ∉ remapTable.map Prod.fst := by decide
    exact remapByte_of_notMem (houtputs b h)
  · rw [remapByte_of_notMem h, remapByte_of_notMem h]

theorem remap_remap (s : Bytes) : remap (remap s) = remap s := by
  rw [remap, remap, List.map_map]
  exact List.map_congr_left fun b _ => remapByte_remapByte b

theorem remap_of_notMem {s : Bytes} (h : ∀ b ∈ s, b ∉ remapTable.map Prod.fst) : remap s = s :=
  (List.map_congr_left fun b hb => remapByte_of_notMem (h b hb)).trans s.map_id

/-- Settles O31: the rows of the table, the properties of a string from those of its bytes, and 0xE4 and 0x7B, which
have the same remap. -/
theorem remapProperties : Obligations.RemapProperties :=
  ⟨by decide, fun _ h => remapByte_of_notMem h,
    fun s => ⟨remap_length' s, fun _ => List.getElem?_map, remap_remap s, fun h => remap_of_notMem h⟩,
    [0xE4], [0x7B], by decide, by decide⟩

/-! ## The block padder -/

/-- R151: a string of whole blocks fills its blocks. -/
theorem nblocks_mul_of_dvd {s : Bytes} {b : Nat} (hb : 0 < b) (h : b ∣ s.length) : nblocks s b * b = s.length := by
  obtain ⟨hcover, hlt⟩ := nblocks_bounds s hb
  have hover : nblocks s b * b - s.length = 0 :=
    Nat.eq_zero_of_dvd_of_lt (Nat.dvd_sub (Nat.dvd_mul_left b _) h) (by omega)
  omega

theorem padtext_of_dvd {s : Bytes} {b : Nat} (hb : 0 < b) (h : b ∣ s.length) : padtext s b = s := by
  rw [padtext, nblocks_mul_of_dvd hb h, Nat.sub_self, List.replicate_zero, List.append_nil]

/-- R154: the empty text has no block and no padding, whatever the block size. -/
theorem pad_nil {b : Nat} (hb : 0 < b) : pad [] b = (0, []) := by
  have hdvd : b ∣ ([] : Bytes).length := Nat.dvd_zero b
  have hblocks : nblocks [] b = 0 := (Nat.mul_eq_zero.mp (nblocks_mul_of_dvd hb hdvd)).resolve_right hb.ne'
  rw [pad, hblocks, padtext_of_dvd hb hdvd]

/-- Settles O32: for every block size but 0. -/
theorem blockPadding : Obligations.BlockPadding := by
  intro s b hsize
  have hb : 0 < b := by omega
  have hlen : (padtext s b).length = nblocks s b * b := padtext_length s hb
  obtain ⟨_, hlt⟩ := nblocks_bounds s hb
  refine ⟨rfl, hlen, ?_, ⟨nblocks s b * b - s.length, by omega, rfl⟩,
    fun h => padtext_of_dvd hb (Nat.dvd_of_mod_eq_zero h), pad_nil hb⟩
  exact hlen ▸ Nat.mul_mod_left _ b

/-! ## Counts and remainders (R155) -/

theorem ceilDiv_mono {m n : Nat} (b : Nat) (h : m ≤ n) : ceilDiv m b ≤ ceilDiv n b :=
  Nat.div_le_div_right (Nat.sub_le_sub_right (Nat.add_le_add_right h b) 1)

/-- R155: the largest block count of each command; a command that counts no blocks reports 0. -/
def countBound (cap : Nat) : Instr → Nat
  | .desttxt => ceilDiv cap 16
  | .nextstop | .addrdest => ceilDiv cap 4
  | .lineprog => ceilDiv (3 * cap + 3) 16
  | .screen => ceilDiv (2 * cap + 3) 16
  | _ => 0

/-- R155: the largest remainder of each command; LINEPROG alone has one. -/
def remBound : Instr → Nat
  | .lineprog => 15
  | _ => 0

/-- R155: the count and the remainder of a command that succeeds are within its bounds. -/
theorem payload_counts_le_bound {i : Instr} {s : State} {p : Bytes} {nb rem : Nat} (h : payload i s = .ok p nb rem) :
    nb ≤ countBound (textCap s) i ∧ rem ≤ remBound i := by
  cases i with
  | line | linex | course | destid | ticket | time | date | delay =>
    obtain ⟨_, _, rfl, rfl⟩ := numberField_ok h
    exact ⟨Nat.le_refl 0, Nat.le_refl 0⟩
  | nextv =>
    obtain ⟨_, _, _, _, _, _, rfl, rfl⟩ := payloadNextv_ok h
    exact ⟨Nat.le_refl 0, Nat.le_refl 0⟩
  | desttxt | nextstop | addrdest =>
    obtain ⟨t, hlen, h⟩ := checkedText_ok h
    cases h
    exact ⟨ceilDiv_mono _ hlen, Nat.le_refl 0⟩
  | lineprog =>
    obtain ⟨hl0, h⟩ := checkLen_ok h
    obtain ⟨hl1, h⟩ := checkLen_ok h
    obtain ⟨hl2, h⟩ := checkLen_ok h
    obtain ⟨t0, ht0, h⟩ := withText_ok h
    obtain ⟨t1, ht1, h⟩ := withText_ok h
    obtain ⟨t2, ht2, h⟩ := withText_ok h
    cases h
    have hlen0 := ht0.length_le hl0
    have hlen1 := ht1.length_le hl1
    have hlen2 := ht2.length_le hl2
    have hrec := lineprogRecord_length t0 t1 t2
    exact ⟨ceilDiv_mono _ (by omega), Nat.le_of_lt_succ (Nat.mod_lt _ (by decide))⟩
  | screen =>
    obtain ⟨hl0, h⟩ := checkLen_ok h
    obtain ⟨hl1, h⟩ := checkLen_ok h
    obtain ⟨t0, ht0, h⟩ := withText_ok h
    obtain ⟨t1, ht1, h⟩ := withText_ok h
    cases h
    have hlen0 := ht0.length_le hl0
    have hlen1 := ht1.length_le hl1
    have htext := screenText_length_le t0 t1
    exact ⟨ceilDiv_mono _ (by omega), Nat.le_refl 0⟩
  | frameraw =>
    obtain ⟨_, _, h⟩ := checkedText_ok h
    cases h
    exact ⟨Nat.le_refl 0, Nat.le_refl 0⟩

theorem remBound_of_ne {i : Instr} (h : i ≠ .lineprog) : remBound i = 0 := by
  cases i with
  | lineprog => exact absurd rfl h
  | _ => rfl

theorem remBound_le (i : Instr) : remBound i ≤ 15 := by
  cases i <;> decide

/-- R155: the numbers that the bounds come to at the largest TEXT_CAP. -/
theorem countBound_le {cap : Nat} (hcap : cap ≤ 1020) (i : Instr) : countBound cap i ≤ countBound 1020 i := by
  cases i with
  | desttxt | nextstop | addrdest | lineprog | screen => exact ceilDiv_mono _ (by omega)
  | _ => exact Nat.le_refl 0

/-- Settles O33: each command's bound, and its value at the largest TEXT_CAP. -/
theorem hexInputsAreInRange : Obligations.HexInputsAreInRange := by
  intro i s p nb rem hcap hp
  obtain ⟨hnb, hrem⟩ := payload_counts_le_bound hp
  have hmax : nb ≤ countBound 1020 i := hnb.trans (countBound_le hcap.2 i)
  have hbyte : countBound 1020 i ≤ 255 := by cases i <;> decide
  refine ⟨hmax.trans hbyte, hrem.trans (remBound_le i), fun hi => Nat.le_zero.mp (remBound_of_ne hi ▸ hrem), ?_⟩
  refine ⟨?_, ?_, ?_, ?_, ?_⟩ <;> rintro rfl
  · exact ⟨hnb, hmax⟩
  · exact hnb
  · exact hnb
  · exact ⟨hnb, hmax⟩
  · exact ⟨hnb, hmax⟩

end Sys2Proof.Machine
end

section
/-! PROOFS. The fixed-format telegrams (R170 to R179): a command whose payload is built or is an error meets the
statement of its completion, so what is left of each telegram is what its payload answers. -/

namespace Sys2Proof.Machine

/-! ## From a payload to its completion -/

/-- R126: a command whose payload is built has every effect of a success and no other, while the sink accepts.
NBLK and REM hold one byte, FLEN two. -/
theorem succeeds_of_payload {i : Instr} {s : State} {p : Bytes} {nb rem : Nat} (hsink : s.sinkReady = true)
    (hp : payload i s = .ok p nb rem) (hnb : nb < 2 ^ 8) (hrem : rem < 2 ^ 8) (hflen : (frame p).length < 2 ^ 16) :
    Succeeds i s p nb rem :=
  ⟨successCompletion p nb rem s, exec_of_ok hsink hp, rfl, rfl, Nat.mod_eq_of_lt hnb,
    Nat.mod_eq_of_lt hrem, Nat.mod_eq_of_lt hflen, rfl, rfl, rfl, fbufHolds_successCompletion p nb rem s,
    memSame_successCompletion p nb rem s (payload_frame_fits hp), rfl⟩

/-- R128: a command whose payload is an error fails with that error's code, whatever the sink. -/
theorem failsWith_of_payload {i : Instr} {s : State} {e : ErrCode} (hp : payload i s = .error e) :
    FailsWith (errByte e) i s := by
  rw [FailsWith, exec_eq_complete, hp]
  exact failsFrom_errorCompletion e s

/-! ## Telegrams of a number -/

/-- R143, R170, R255: a command that sends a head and NUM in W digits: it succeeds when NUM fits and fails when it
does not. -/
theorem numberField_completes {i : Instr} {s : State} {head : Bytes} {W : Nat}
    (hp : payload i s = numberField s head W) (hlen : head.length + W + 2 < 2 ^ 16) :
    (num s ≤ 10 ^ W - 1 → s.sinkReady = true → Succeeds i s (head ++ dec W (num s)) 0 0) ∧
      (10 ^ W - 1 < num s → FailsWith 0x04 i s) := by
  obtain ⟨hgt, hfield⟩ | ⟨hle, hfield⟩ := numberField_cases s head W <;> rw [hfield] at hp
  · exact ⟨fun hle => absurd hle (not_le.mpr hgt), fun _ => failsWith_of_payload hp⟩
  · have hflen : (frame (head ++ dec W (num s))).length < 2 ^ 16 := by
      rwa [frame_length, List.length_append, dec_length']
    exact ⟨fun _ hsink => succeeds_of_payload hsink hp (by decide) (by decide) hflen,
      fun hgt => absurd hle (not_le.mpr hgt)⟩

theorem numberTelegram_of_payload {i : Instr} {letters : Bytes} {W : Nat}
    (hp : ∀ s, payload i s = numberField s letters W) (hlen : letters.length + W + 2 < 2 ^ 16) :
    NumberTelegram i (encode i) letters W :=
  ⟨decode_encode i, fun s => numberField_completes (hp s) hlen⟩

/-- Settles O39: the payload of each of the seven is a numeric field. -/
theorem numberTelegramsComplete : Obligations.NumberTelegramsComplete :=
  ⟨numberTelegram_of_payload (i := .line) (fun _ => rfl) (by decide),
    numberTelegram_of_payload (i := .linex) (fun _ => rfl) (by decide),
    numberTelegram_of_payload (i := .course) (fun _ => rfl) (by decide),
    numberTelegram_of_payload (i := .destid) (fun _ => rfl) (by decide),
    numberTelegram_of_payload (i := .ticket) (fun _ => rfl) (by decide),
    numberTelegram_of_payload (i := .time) (fun _ => rfl) (by decide),
    numberTelegram_of_payload (i := .date) (fun _ => rfl) (by decide)⟩

/-! ## DELAY -/

/-- R94: the sign byte for each value of SGN. -/
theorem signByte_eq : ∀ g : BitVec 1, (g.toNat = 0 → signByte g = 0x2B) ∧ (g.toNat = 1 → signByte g = 0x2D) := by
  decide

/-- Settles O41: DELAY is a numeric field of 3 digits whose head ends in the sign. -/
theorem delayCompletes : Obligations.DelayCompletes := by
  refine ⟨decode_encode .delay, fun s => ?_⟩
  obtain ⟨hplus, hminus⟩ := signByte_eq (sgn s)
  obtain ⟨hok, hovf⟩ := numberField_completes (i := .delay) (s := s) (head := [0x78, 0x56, signByte (sgn s)])
    (W := 3) rfl (by simp)
  exact ⟨fun hfits hsink => ⟨fun h0 => hplus h0 ▸ hok hfits hsink, fun h1 => hminus h1 ▸ hok hfits hsink⟩, hovf⟩

/-! ## NEXTV -/

/-- R94: WSEL = 3 selects no width. -/
theorem widthOf_eq_none : ∀ {w : BitVec 2}, w.toNat = 3 → widthOf w = none := by decide

/-- R94: the width of each other value of WSEL. -/
theorem widthOf_eq_some {w : BitVec 2} {W : Nat}
    (h : (w.toNat = 0 ∧ W = 16) ∨ (w.toNat = 1 ∧ W = 20) ∨ (w.toNat = 2 ∧ W = 24)) : widthOf w = some W := by
  have hrows : ∀ w : BitVec 2, (w.toNat = 0 → widthOf w = some 16) ∧ (w.toNat = 1 → widthOf w = some 20) ∧
      (w.toNat = 2 → widthOf w = some 24) := by decide
  obtain ⟨h16, h20, h24⟩ := hrows w
  obtain ⟨hw, rfl⟩ | ⟨hw, rfl⟩ | ⟨hw, rfl⟩ := h
  · exact h16 hw
  · exact h20 hw
  · exact h24 hw

/-- R257: NEXTV's first check. -/
theorem payloadNextv_of_tlen {s : State} (h : tlen s .t0 > textCap s) : payloadNextv s = .error .tlen :=
  checkLen_of_gt h

/-- R257: NEXTV's second check. -/
theorem payloadNextv_of_noWidth {s : State} (hcap : tlen s .t0 ≤ textCap s) (hwidth : widthOf (wsel s) = none) :
    payloadNextv s = .error .wsel := by
  rw [payloadNextv, checkLen_of_le hcap, hwidth]

/-- R178, R257: NEXTV once its length and its WSEL have passed: the third check, then the text. -/
theorem payloadNextv_of_width {s : State} {W : Nat} (hcap : tlen s .t0 ≤ textCap s)
    (hwidth : widthOf (wsel s) = some W) :
    payloadNextv s =
      if tlen s .t0 > W then .error .txtOvf else withText s .t0 (fun t0 => .ok ([0x76] ++ ljust W t0) 0 0) := by
  rw [payloadNextv, checkLen_of_le hcap, hwidth]

/-- R178: what NEXTV builds from a text that fits its field. -/
theorem payloadNextv_of_holds {s : State} {W : Nat} {t0 : Bytes} (hcap : tlen s .t0 ≤ textCap s)
    (hwidth : widthOf (wsel s) = some W) (ht0 : TextHolds s .t0 t0) (hfits : t0.length ≤ W) :
    payloadNextv s = .ok ([0x76] ++ ljust W t0) 0 0 := by
  rw [payloadNextv_of_width hcap hwidth, if_neg (ht0.1 ▸ not_lt.mpr hfits), withText_of_holds ht0]

/-- Settles O40: the three errors in their order, and the field of the width WSEL selects. -/
theorem nextvCompletes : Obligations.NextvCompletes := by
  refine ⟨decode_encode .nextv, fun s => ⟨fun hlong => ?_, fun hcap hwsel => ?_, fun W hW hcap =>
    ⟨fun hovf => ?_, fun t0 ht0 hfits hsink => ?_⟩⟩⟩
  · exact failsWith_of_payload (i := .nextv) (payloadNextv_of_tlen hlong)
  · exact failsWith_of_payload (i := .nextv) (payloadNextv_of_noWidth hcap (widthOf_eq_none hwsel))
  · exact failsWith_of_payload (i := .nextv) ((payloadNextv_of_width hcap (widthOf_eq_some hW)).trans (if_pos hovf))
  · have hp := payloadNextv_of_holds hcap (widthOf_eq_some hW) ht0 hfits
    have hflen : (frame ([0x76] ++ ljust W t0)).length < 2 ^ 16 := by
      have := payloadNextv_length_le hp
      rw [frame_length]
      omega
    exact succeeds_of_payload hsink hp (by decide) (by decide) hflen

end Sys2Proof.Machine
end

section
/-! PROOFS. The block-structured telegrams (R200 to R206): each checks the lengths of its texts, reads them, and answers
one payload, so what is left of each telegram is how the block codec writes that payload. -/

namespace Sys2Proof.Machine

/-! ## Completions within the range of TEXT_CAP -/

/-- R126, R131, R155: in the range of TEXT_CAP the result registers hold what they report, so a payload that is built is
all a success needs but the sink. -/
theorem succeeds_of_capOk {i : Instr} {s : State} {p : Bytes} {nb rem : Nat} (hcap : CapOk s)
    (hsink : s.sinkReady = true) (hp : payload i s = .ok p nb rem) : Succeeds i s p nb rem := by
  obtain ⟨hnb, hrem⟩ := payload_counts_lt hcap hp
  have hflen : (frame p).length < 2 ^ 16 := flen_of_fits hcap (payload_frame_fits hp) ▸ (BitVec.ofNat 16 _).isLt
  exact succeeds_of_payload hsink hp hnb hrem hflen

/-! ## Checked texts -/

/-- R93, R253: a chain of length checks answers E_TLEN when one of its lengths is too long. -/
theorem checkLen_eq_tlen {s : State} {k : TextIdx} {b : Built} (h : tlen s k > textCap s ∨ b = .error .tlen) :
    checkLen s k b = .error .tlen := by
  obtain ⟨_, hcheck⟩ | ⟨hle, hcheck⟩ := checkLen_cases s k b
  · exact hcheck
  · exact hcheck.trans (h.resolve_left (not_lt.mpr hle))

/-- R93: a text that the state holds and that fits its buffer passes its length check. -/
theorem TextHolds.checkLen_eq {s : State} {k : TextIdx} {t : Bytes} (ht : TextHolds s k t) (hle : t.length ≤ textCap s)
    (b : Built) : checkLen s k b = b :=
  checkLen_of_le (ht.1.trans_le hle)

/-- R93, R253: a command of one text fails when the text is too long, and else completes with what it builds from it. -/
theorem checkedText_completes {i : Instr} {s : State} {p : Bytes → Bytes} {nb : Bytes → Nat} (hcap : CapOk s)
    (hp : payload i s = checkLen s .t0 (withText s .t0 fun t0 => .ok (p t0) (nb t0) 0)) :
    (tlen s .t0 > textCap s → FailsWith 0x02 i s) ∧
      ∀ t0, TextHolds s .t0 t0 → t0.length ≤ textCap s → s.sinkReady = true → Succeeds i s (p t0) (nb t0) 0 := by
  refine ⟨fun hlong => failsWith_of_payload (hp.trans (checkLen_of_gt hlong)), fun t0 ht0 hlen hsink => ?_⟩
  rw [ht0.checkLen_eq hlen, withText_of_holds ht0] at hp
  exact succeeds_of_capOk hcap hsink hp

/-! ## Padded texts -/

/-- R149, R150: a head and a padded text, written out with the spaces of the padding. -/
theorem append_padtext (head t : Bytes) (b : Nat) :
    head ++ padtext t b = head ++ t ++ List.replicate (ceilDiv t.length b * b - t.length) 0x20 :=
  (List.append_assoc _ _ _).symm

/-- R201, R202: two letters, the count of blocks and T0 padded to them, for every block size. -/
theorem paddedText_completes {i : Instr} {s : State} {letters : Bytes} {b : Nat} (hcap : CapOk s)
    (hp : payload i s = checkLen s .t0 (withText s .t0 fun t0 =>
      .ok (letters ++ hex (countByte (pad t0 b).1) ++ (pad t0 b).2) (pad t0 b).1 0)) :
    (tlen s .t0 > textCap s → FailsWith 0x02 i s) ∧
      ∀ t0 nb, TextHolds s .t0 t0 → t0.length ≤ textCap s → nb = ceilDiv t0.length b → s.sinkReady = true →
        Succeeds i s
          (letters ++ hex (BitVec.ofNat 8 nb) ++ t0 ++ List.replicate (nb * b - t0.length) 0x20) nb 0 := by
  obtain ⟨hfails, hsucceeds⟩ := checkedText_completes hcap hp
  refine ⟨hfails, ?_⟩
  rintro t0 _ ht0 hlen rfl hsink
  exact append_padtext _ t0 b ▸ hsucceeds t0 ht0 hlen hsink

/-- Settles O42: DESTTXT is a padded text of 16-byte blocks. -/
theorem desttxtCompletes : Obligations.DesttxtCompletes :=
  ⟨decode_encode .desttxt, fun _ hcap => paddedText_completes (b := 16) hcap rfl⟩

/-- Settles O43: NEXTSTOP is a padded text of 4-byte blocks. -/
theorem nextstopCompletes : Obligations.NextstopCompletes :=
  ⟨decode_encode .nextstop, fun _ hcap => paddedText_completes (b := 4) hcap rfl⟩

/-! ## ADDRDEST -/

/-- R203: 16 bytes for each 4-byte block are never fewer than the text has. -/
theorem take_blocks (t : Bytes) : t.take (nblocks t 4 * 16) = t := by
  have hcover := (nblocks_bounds t (b := 4) (by decide)).1
  exact List.take_of_length_le (by omega)

/-- Settles O44: the cut of R203 leaves T0 whole. -/
theorem addrdestCompletes : Obligations.AddrdestCompletes := by
  refine ⟨decode_encode .addrdest, fun s hcap => ?_⟩
  obtain ⟨hfails, hsucceeds⟩ := checkedText_completes (i := .addrdest) hcap rfl
  refine ⟨hfails, ?_⟩
  rintro t0 _ ht0 hlen rfl hsink
  have hdone := hsucceeds t0 ht0 hlen hsink
  rw [take_blocks] at hdone
  exact ⟨hdone, take_blocks t0⟩

/-! ## LINEPROG -/

/-- R204, R257: LINEPROG's three length checks. -/
theorem payloadLineprog_of_tlen {s : State} (h : ∃ k, tlen s k > textCap s) : payloadLineprog s = .error .tlen :=
  checkLen_eq_tlen ((exists_textIdx.mp h).imp_right fun h =>
    checkLen_eq_tlen (h.imp_right fun h => checkLen_eq_tlen (.inl h)))

/-- R204: what LINEPROG builds from three texts that fit; the record is 3 bytes longer than they are. -/
theorem payloadLineprog_of_holds {s : State} {t0 t1 t2 : Bytes} {L : Nat} (ht0 : TextHolds s .t0 t0)
    (ht1 : TextHolds s .t1 t1) (ht2 : TextHolds s .t2 t2) (hlen0 : t0.length ≤ textCap s)
    (hlen1 : t1.length ≤ textCap s) (hlen2 : t2.length ≤ textCap s) (hL : L = 3 + t0.length + t1.length + t2.length) :
    payloadLineprog s =
      .ok ([0x61, 0x4C] ++ hex s.addr ++ hex (countByte (ceilDiv L 16)) ++ hex (countByte (L % 16)) ++
        lineprogRecord t0 t1 t2) (ceilDiv L 16) (L % 16) := by
  rw [payloadLineprog, ht0.checkLen_eq hlen0, ht1.checkLen_eq hlen1, ht2.checkLen_eq hlen2, withText_of_holds ht0,
    withText_of_holds ht1, withText_of_holds ht2, lineprogRecord_length, ← hL]

/-- R204: a head and the record, written out. -/
theorem append_lineprogRecord (head t0 t1 t2 : Bytes) :
    head ++ lineprogRecord t0 t1 t2 = head ++ [0x03] ++ t0 ++ [0x04] ++ t1 ++ [0x05] ++ t2 := by
  simp only [lineprogRecord, List.append_assoc]

/-- Settles O45: the checks of the three lengths, and the count and the remainder of the record's length. -/
theorem lineprogCompletes : Obligations.LineprogCompletes := by
  refine ⟨decode_encode .lineprog, fun s hcap => ⟨fun hlong => ?_, ?_⟩⟩
  · exact failsWith_of_payload (i := .lineprog) (payloadLineprog_of_tlen hlong)
  · intro t0 t1 t2 L ht0 ht1 ht2 hlen0 hlen1 hlen2 hL hsink
    have hp := payloadLineprog_of_holds ht0 ht1 ht2 hlen0 hlen1 hlen2 hL
    rw [append_lineprogRecord] at hp
    exact succeeds_of_capOk (i := .lineprog) hcap hsink hp

/-! ## SCREEN -/

/-- R205, R257: SCREEN's two length checks. -/
theorem payloadScreen_of_tlen {s : State} (h : tlen s .t0 > textCap s ∨ tlen s .t1 > textCap s) :
    payloadScreen s = .error .tlen :=
  checkLen_eq_tlen (h.imp_right fun h => checkLen_eq_tlen (.inl h))

/-- R205: what SCREEN builds from two lines that fit. -/
theorem payloadScreen_of_holds {s : State} {t0 t1 : Bytes} (ht0 : TextHolds s .t0 t0) (ht1 : TextHolds s .t1 t1)
    (hlen0 : t0.length ≤ textCap s) (hlen1 : t1.length ≤ textCap s) :
    payloadScreen s =
      .ok ([0x61, 0x41] ++ hex s.addr ++ hex (countByte (pad (screenText t0 t1) 16).1) ++
        (pad (screenText t0 t1) 16).2) (pad (screenText t0 t1) 16).1 0 := by
  rw [payloadScreen, ht0.checkLen_eq hlen0, ht1.checkLen_eq hlen1, withText_of_holds ht0, withText_of_holds ht1]

/-- R205: no second line, no separator. -/
theorem screenText_nil (t0 : Bytes) : screenText t0 [] = t0 ++ [0x0A, 0x0A] := by
  simp [screenText, chLF]

/-- R205: a second line comes after a separator. -/
theorem screenText_of_ne_nil (t0 : Bytes) {t1 : Bytes} (h : t1 ≠ []) :
    screenText t0 t1 = t0 ++ [0x0A] ++ t1 ++ [0x0A, 0x0A] := by
  rw [screenText, if_pos (List.length_pos_iff.mpr h), ← List.append_assoc]
  rfl

/-- Settles O46: the screen text with and without a second line, padded to 16-byte blocks. -/
theorem screenCompletes : Obligations.ScreenCompletes := by
  refine ⟨decode_encode .screen, fun s hcap => ⟨fun hlong => ?_, ?_⟩⟩
  · exact failsWith_of_payload (i := .screen) (payloadScreen_of_tlen hlong)
  · rintro t0 t1 txt _ ht0 ht1 hlen0 hlen1 hempty hline rfl hsink
    have htxt : screenText t0 t1 = txt := by
      by_cases h : t1 = []
      · rw [hempty h, h, screenText_nil]
      · rw [hline h, screenText_of_ne_nil t0 h]
    have hp := payloadScreen_of_holds ht0 ht1 hlen0 hlen1
    rw [htxt, pad, append_padtext] at hp
    exact succeeds_of_capOk (i := .screen) hcap hsink hp

end Sys2Proof.Machine
end

section
/-! PROOFS. The Framer (R230 to R238): what the checksum fold does to reordered bytes, to an error pattern and to each
bit, and FRAMERAW, which frames T0 as it stands. -/

namespace Sys2Proof.Machine

/-! ## The layout of a frame -/

/-- R234: the fold does not see the order of its bytes. -/
theorem accFold_perm {q r : Bytes} (h : q.Perm r) (a : Byte) : accFold a q = accFold a r :=
  h.foldl_eq a

theorem checksum_perm {p q : Bytes} (h : q.Perm p) : checksum q = checksum p :=
  accFold_perm ((h.map remapByte).append_right [chCR]) checksumSeed

/-- R232, R233: the terminator is folded in after the remapped payload. -/
theorem checksum_eq_accFold (p : Bytes) : checksum p = accFold 0x7F (remap p) ^^^ 0x0D :=
  accFold_append ..

/-- Settles O34: the fold over a permuted payload ends at the same byte. -/
theorem frameLayout : Obligations.FrameLayout := fun p =>
  ⟨checksum p, frame_eq_append p, rfl, checksum_eq_accFold p, frame_length p, fun _ h => checksum_perm h⟩

/-! ## Errors and the self-check -/

/-- An error XORed into the accumulator stays in it to the end. -/
theorem accFold_xor (a d : Byte) (q : Bytes) : accFold (a ^^^ d) q = accFold a q ^^^ d := by
  rw [accFold_start, accFold_start a]
  ac_rfl

/-- An error pattern moves the fold by the XOR of its own bytes. -/
theorem accFold_zipWith_xor {f e : Bytes} (h : e.length = f.length) (a : Byte) :
    accFold a (List.zipWith (fun x y => x ^^^ y) f e) = accFold a f ^^^ accFold 0 e := by
  induction f generalizing e a with
  | nil =>
    obtain rfl := List.length_eq_zero_iff.mp h
    exact BitVec.xor_zero.symm
  | cons x f ih =>
    obtain ⟨y, e, rfl⟩ := List.exists_cons_of_length_eq_add_one h
    rw [List.zipWith_cons_cons, accFold_cons, ← BitVec.xor_assoc, accFold_xor, ih (Nat.succ.inj h), accFold_cons,
      accFold_cons, accFold_xor 0, BitVec.xor_assoc]

/-- An error in one byte moves the fold by that error, wherever the byte stands. -/
theorem accFold_modify_xor {f : Bytes} {k : Nat} (hk : k < f.length) (a d : Byte) :
    accFold a (f.modify k (fun x => x ^^^ d)) = accFold a f ^^^ d := by
  have hsplit : f.take k ++ f[k] :: f.drop (k + 1) = f := by
    rw [← List.drop_eq_getElem_cons hk, List.take_append_drop]
  rw [List.modify_eq_take_cons_drop hk, accFold_append, accFold_cons, ← BitVec.xor_assoc, accFold_xor, ← accFold_cons,
    ← accFold_append, hsplit]

theorem twoPow_ne_zero {b : Nat} (hb : b < 8) : BitVec.twoPow 8 b ≠ 0#8 := by
  intro hzero
  have hbit := congrArg (fun v => v.getLsbD b) hzero
  simp [hb] at hbit

/-- Settles O35: the fold of a corrupted frame is the fold of the error pattern, since that of the frame is 0; for one
flipped bit it is the bit, which is not 0. -/
theorem frameSelfCheck : Obligations.FrameSelfCheck := by
  intro p
  have hself : accFold 0x7F (frame p) = 0#8 := frame_selfChecks p
  refine ⟨hself, fun e he => ?_, fun k b hb hk hcheck => ?_⟩
  · rw [SelfChecks, accFold_zipWith_xor he, hself, BitVec.zero_xor]
  · have hzero : BitVec.twoPow 8 b = 0#8 := by
      rwa [SelfChecks, accFold_modify_xor hk, hself, BitVec.zero_xor] at hcheck
    exact twoPow_ne_zero hb hzero

/-! ## Bit 7 -/

/-- Each bit of the fold is the bit it began with, flipped once for each byte that has the bit set. -/
theorem getLsbD_accFold (a : Byte) (q : Bytes) (i : Nat) :
    (accFold a q).getLsbD i = (a.getLsbD i ^^ decide (q.countP (fun b => b.getLsbD i) % 2 = 1)) := by
  induction q generalizing a with
  | nil => simp
  | cons b q ih =>
    rw [accFold_cons, ih, BitVec.getLsbD_xor, List.countP_cons]
    cases b.getLsbD i with
    | false => simp
    | true =>
      have hparity : decide ((q.countP (fun b => b.getLsbD i) + 1) % 2 = 1) =
          !decide (q.countP (fun b => b.getLsbD i) % 2 = 1) := by
        rw [← decide_not, decide_eq_decide]
        omega
      simp [hparity]

/-- R237: neither the seed nor the terminator has bit 7 set. -/
theorem checksum_getLsbD_seven (p : Bytes) :
    (checksum p).getLsbD 7 = decide ((remap p).countP (fun b => b.getLsbD 7) % 2 = 1) := by
  rw [checksum_eq_accFold, BitVec.getLsbD_xor, getLsbD_accFold]
  simp

theorem getLsbD_seven_eq_false_iff {b : Byte} : b.getLsbD 7 = false ↔ b.toNat < 0x80 := by
  revert b
  decide

/-- Settles O36: a payload with no high byte has an even number of them. -/
theorem checksumTopBitIsParity : Obligations.ChecksumTopBitIsParity := by
  refine fun p => ⟨fun hlow b hb => ?_, checksum_getLsbD_seven p⟩
  have hcount : (remap p).countP (fun b => b.getLsbD 7) = 0 :=
    List.countP_eq_zero.mpr fun c hc => Bool.not_eq_true _ ▸ getLsbD_seven_eq_false_iff.mpr (hlow c hc)
  have hsum : (checksum p).toNat < 0x80 := by
    rw [← getLsbD_seven_eq_false_iff, checksum_getLsbD_seven, hcount]
    rfl
  rw [frame_eq_append, List.mem_append, List.mem_pair] at hb
  obtain hpayload | rfl | rfl := hb
  · exact hlow b hpayload
  · decide
  · exact hsum

/-! ## HIBIT -/

theorem hibit_eq_true_iff {q : Bytes} : hibit q = true ↔ ∃ b ∈ q, 0x80 ≤ b.toNat := by
  simp only [hibit, List.any_eq_true, decide_eq_true_eq]

/-- Settles O37: what a success writes to HIBIT and hands to the sink. -/
theorem hibitReportsHighBytes : Obligations.HibitReportsHighBytes := by
  intro i s t p nb rem hsink hp hexec
  obtain rfl : successCompletion p nb rem s = t := by
    rw [exec_of_ok hsink hp] at hexec
    exact Host.Outcome.next.inj hexec
  exact ⟨hibit_eq_true_iff, rfl⟩

/-! ## FRAMERAW -/

/-- Settles O47: FRAMERAW is a checked text whose payload is the text itself. -/
theorem framerawCompletes : Obligations.FramerawCompletes :=
  ⟨decode_encode .frameraw, fun _ hcap => checkedText_completes hcap rfl⟩

end Sys2Proof.Machine
end

section
/-! PROOFS. Errors (R250 to R257): the completion of a pending command reports an error code only when its payload is that
error, and E_TLEN is the payload of a command exactly when one of the texts in its row is too long. -/

namespace Sys2Proof.Machine

/-! ## From a failed completion back to its payload -/

/-- R251: the five errors have five codes. -/
theorem errByte_injective : Function.Injective errByte := by
  intro e f h
  cases e <;> cases f <;> trivial

/-- R128: a failed completion tells the error of the payload, since a success clears ERR, and a command that waits for the
sink is still BUSY. -/
theorem failsWith_iff_payload {i : Instr} {s : State} {e : ErrCode} (hbusy : s.status.busy = true) :
    FailsWith (errByte e) i s ↔ payload i s = .error e := by
  refine ⟨?_, failsWith_of_payload⟩
  rintro ⟨t, hexec, hstatus, hcode, -⟩
  rw [exec_eq_complete] at hexec
  obtain ⟨f, hf, rfl⟩ | ⟨p, nb, rem, _, _, rfl⟩ | ⟨_, _, rfl⟩ := complete_next hexec
  · exact hf.trans (congrArg Built.error (errByte_injective hcode))
  · have herr : false = true := congrArg Status.err hstatus
    cases herr
  · have hidle : t.status.busy = false := congrArg Status.busy hstatus
    rw [hbusy] at hidle
    cases hidle

/-! ## E_TLEN -/

/-- R93, R253: a length check answers E_TLEN for its own length or for what follows it. -/
theorem checkLen_eq_tlen_iff {s : State} {k : TextIdx} {b : Built} :
    checkLen s k b = .error .tlen ↔ tlen s k > textCap s ∨ b = .error .tlen := by
  refine ⟨fun h => ?_, checkLen_eq_tlen⟩
  obtain ⟨hgt, _⟩ | ⟨_, hcheck⟩ := checkLen_cases s k b
  · exact .inl hgt
  · exact .inr (hcheck.symm.trans h)

/-- A length check before a part that makes none answers E_TLEN for its own length alone. -/
theorem lastCheckLen_eq_tlen_iff {s : State} {k : TextIdx} {b : Built} (hb : b ≠ .error .tlen) :
    checkLen s k b = .error .tlen ↔ tlen s k > textCap s :=
  checkLen_eq_tlen_iff.trans (or_iff_left hb)

/-- R129: reading a text is never an error of its own. -/
theorem withText_ne_error {s : State} {k : TextIdx} {f : Bytes → Built} {e : ErrCode} (hf : ∀ t, f t ≠ .error e) :
    withText s k f ≠ .error e := by
  obtain ⟨t, _, h⟩ | ⟨_, h⟩ := withText_cases s k f <;> rw [h]
  · exact hf t
  · exact nofun

/-- R253: a command that checks and reads one text. -/
theorem checkedText_eq_tlen_iff {s : State} {k : TextIdx} {f : Bytes → Built} (hf : ∀ t, f t ≠ .error .tlen) :
    checkLen s k (withText s k f) = .error .tlen ↔ tlen s k > textCap s :=
  lastCheckLen_eq_tlen_iff (withText_ne_error hf)

/-- R255: the one error of a numeric field is E_NUM_OVF. -/
theorem numberField_ne_tlen (s : State) (head : Bytes) (W : Nat) : numberField s head W ≠ .error .tlen := by
  obtain ⟨_, h⟩ | ⟨_, h⟩ := numberField_cases s head W <;> rw [h] <;> exact nofun

/-- R178, R257: NEXTV checks WSEL and the field width after the length, and answers other errors for them. -/
theorem payloadNextv_eq_tlen_iff {s : State} : payloadNextv s = .error .tlen ↔ tlen s .t0 > textCap s := by
  refine lastCheckLen_eq_tlen_iff ?_
  cases widthOf (wsel s) with
  | none => exact nofun
  | some W =>
    dsimp only
    split
    · exact nofun
    · exact withText_ne_error fun _ => nofun

/-- R204, R253: LINEPROG checks its three lengths. -/
theorem payloadLineprog_eq_tlen_iff {s : State} :
    payloadLineprog s = .error .tlen ↔ tlen s .t0 > textCap s ∨ tlen s .t1 > textCap s ∨ tlen s .t2 > textCap s := by
  rw [payloadLineprog, checkLen_eq_tlen_iff, checkLen_eq_tlen_iff, lastCheckLen_eq_tlen_iff]
  exact withText_ne_error fun _ => withText_ne_error fun _ => withText_ne_error fun _ => nofun

/-- R205, R253: SCREEN checks its two lengths. -/
theorem payloadScreen_eq_tlen_iff {s : State} :
    payloadScreen s = .error .tlen ↔ tlen s .t0 > textCap s ∨ tlen s .t1 > textCap s := by
  rw [payloadScreen, checkLen_eq_tlen_iff, lastCheckLen_eq_tlen_iff]
  exact withText_ne_error fun _ => withText_ne_error fun _ => nofun

/-- R91, R253: a payload is E_TLEN exactly when a text in the command's row is too long. -/
theorem payload_eq_tlen_iff {i : Instr} {s : State} :
    payload i s = .error .tlen ↔ ∃ k, readsText i k = true ∧ tlen s k > textCap s := by
  rw [exists_textIdx]
  cases i with
  | line | linex | course | destid | ticket | time | date | delay =>
    exact iff_of_false (numberField_ne_tlen s _ _) (by simp [readsText])
  | nextv =>
    refine payloadNextv_eq_tlen_iff.trans ?_
    simp [readsText]
  | desttxt | nextstop | addrdest | frameraw =>
    refine Iff.trans (b := tlen s .t0 > textCap s) (checkedText_eq_tlen_iff fun _ => nofun) ?_
    simp [readsText]
  | lineprog =>
    refine payloadLineprog_eq_tlen_iff.trans ?_
    simp [readsText]
  | screen =>
    refine payloadScreen_eq_tlen_iff.trans ?_
    simp [readsText]

/-- Settles O49: a payload that is E_TLEN fails whatever the sink, and a pending command fails by its payload alone. -/
theorem tlenIsCheckedFirst : Obligations.TlenIsCheckedFirst := fun _ _ =>
  ⟨fun hlong => failsWith_of_payload (payload_eq_tlen_iff.mpr hlong),
    fun hbusy hfails => payload_eq_tlen_iff.mp ((failsWith_iff_payload (e := .tlen) hbusy).mp hfails)⟩

end Sys2Proof.Machine
end

section
/-! PROOFS. What a reset hands to the sink of the pending command (R282): the first bytes of the frame built over the
filled texts. There a command that would fail fails, one that would succeed keeps its payload, and one that meets an
unwritten byte succeeds. -/

namespace Sys2Proof.Machine

/-! ## States that differ in memory alone -/

/-- `t` is `s` but for the bytes it holds: the same command is pending, on the same registers. -/
def SameButMem (s t : State) : Prop := t = { s with mem := t.mem }

theorem sameButMem_filledTexts (s : State) : SameButMem s (filledTexts s) := filledTexts_eq s

theorem SameButMem.symm {s t : State} (h : SameButMem s t) : SameButMem t s := by
  rw [SameButMem, h]

theorem SameButMem.cmd_eq {s t : State} (h : SameButMem s t) : t.cmd = s.cmd := by
  rw [h]

theorem SameButMem.textCap_eq {s t : State} (h : SameButMem s t) : textCap t = textCap s := by
  rw [h]
  rfl

theorem SameButMem.wsel_eq {s t : State} (h : SameButMem s t) : wsel t = wsel s := by
  rw [h]
  rfl

theorem SameButMem.tlen_eq {s t : State} (h : SameButMem s t) (k : TextIdx) : tlen t k = tlen s k := by
  rw [h]
  cases k <;> rfl

/-- R91: two such states agree on the operands of a command when they agree on the texts it reads. -/
theorem SameButMem.sameOperands {i : Instr} {s t : State} (h : SameButMem s t)
    (htexts : ∀ k, readsText i k = true →
      ∀ j, j < tlen s k → memLookup s.mem (tbufBase k + j) = memLookup t.mem (tbufBase k + j)) :
    SameOperands i s t :=
  ⟨(congrArg State.tcap h).symm, fun _ => (congrArg State.addr h).symm, fun _ => (congrArg num h).symm,
    fun _ => (congrArg sgn h).symm, fun _ => h.wsel_eq.symm, fun k hreads => ⟨(h.tlen_eq k).symm, htexts k hreads⟩⟩

/-! ## Errors do not depend on memory -/

/-- R257: a length check reads no text byte. -/
theorem SameButMem.checkLen_error {s t : State} {k : TextIdx} {b c : Built} {e : ErrCode} (hst : SameButMem s t)
    (hrest : b = .error e → c = .error e) (h : checkLen s k b = .error e) : checkLen t k c = .error e := by
  obtain ⟨hgt, hcheck⟩ | ⟨hle, hcheck⟩ := checkLen_cases s k b <;> rw [hcheck] at h
  · rw [← h]
    exact checkLen_of_gt (by rwa [hst.tlen_eq, hst.textCap_eq])
  · rw [← hrest h]
    exact checkLen_of_le (by rwa [hst.tlen_eq, hst.textCap_eq])

/-- R257: the last length check of a command, before it reads its texts. -/
theorem SameButMem.lastCheckLen_error {s t : State} {k : TextIdx} {b c : Built} {e : ErrCode} (hst : SameButMem s t)
    (hb : b ≠ .error e) (h : checkLen s k b = .error e) : checkLen t k c = .error e :=
  hst.checkLen_error (fun he => absurd he hb) h

/-- R178, R257: NEXTV checks WSEL and the field width before its text. -/
theorem SameButMem.payloadNextv_error {s t : State} {e : ErrCode} (hst : SameButMem s t)
    (h : payloadNextv s = .error e) : payloadNextv t = .error e := by
  refine hst.checkLen_error (fun hrest => ?_) h
  rw [hst.wsel_eq, hst.tlen_eq]
  revert hrest
  cases widthOf (wsel s) with
  | none => exact id
  | some W =>
    dsimp only
    split
    · exact id
    · exact fun htext => absurd htext (withText_ne_error fun _ => nofun)

/-- R129, R257: every error check of a command comes before the first text byte it reads. -/
theorem SameButMem.payload_error {i : Instr} {s t : State} {e : ErrCode} (hst : SameButMem s t)
    (h : payload i s = .error e) : payload i t = .error e := by
  cases i with
  | line | linex | course | destid | ticket | time | date | delay =>
    exact (payload_congr (hst.sameOperands (by simp [readsText]))).symm.trans h
  | nextv => exact hst.payloadNextv_error h
  | desttxt | nextstop | addrdest | frameraw =>
    refine hst.lastCheckLen_error ?_ h
    exact withText_ne_error fun _ => nofun
  | lineprog =>
    refine hst.checkLen_error (hst.checkLen_error (hst.lastCheckLen_error ?_)) h
    exact withText_ne_error fun _ => withText_ne_error fun _ => withText_ne_error fun _ => nofun
  | screen =>
    refine hst.checkLen_error (hst.lastCheckLen_error ?_) h
    exact withText_ne_error fun _ => withText_ne_error fun _ => nofun

/-! ## A success reads only bytes that hold a value -/

/-- R129: a command that succeeds has met no unwritten byte. -/
theorem not_textUnwritten_of_ok {i : Instr} {s : State} {p : Bytes} {nb rem : Nat} {k : TextIdx}
    (h : payload i s = .ok p nb rem) (hreads : readsText i k = true) : ¬TextUnwritten s k := by
  intro hunwritten
  have hlengths (k' : TextIdx) (hk' : readsText i k' = true) : tlen s k' ≤ textCap s := by
    by_contra hlong
    have htlen : payload i s = .error .tlen := payload_eq_tlen_iff.mpr ⟨k', hk', not_le.mp hlong⟩
    cases h.symm.trans htlen
  have hwidth (hi : i = .nextv) : ∃ W, widthOf (wsel s) = some W ∧ tlen s .t0 ≤ W := by
    subst hi
    obtain ⟨W, t, hW, ht, hfits, -⟩ := payloadNextv_ok h
    exact ⟨W, hW, ht.1 ▸ hfits⟩
  cases h.symm.trans (payload_eq_unwritten.mpr ⟨hlengths, hwidth, k, hreads, hunwritten⟩)

/-- R91: more bytes in memory leave the payload of a success as it was. -/
theorem SameButMem.payload_ok {i : Instr} {s t : State} {p : Bytes} {nb rem : Nat} (hst : SameButMem s t)
    (hkeeps : ∀ a, memLookup s.mem a ≠ none → memLookup t.mem a = memLookup s.mem a)
    (h : payload i s = .ok p nb rem) : payload i t = .ok p nb rem := by
  have hsame : SameOperands i s t := hst.sameOperands fun k hreads j hj =>
    (hkeeps _ fun hnone => not_textUnwritten_of_ok h hreads ⟨j, hj, hnone⟩).symm
  exact (payload_congr hsame).symm.trans h

/-! ## The pending command over the filled texts -/

theorem decode_cmd_filledTexts (s : State) : decode (filledTexts s).cmd = decode s.cmd :=
  congrArg decode (sameButMem_filledTexts s).cmd_eq

/-- R282: a command that would fail, by its code or by its operands, fails over the filled texts. -/
theorem payloadOfCmd_filledTexts_of_error {s : State} {e : ErrCode} (h : payloadOfCmd s = .error e) :
    payloadOfCmd (filledTexts s) = .error e := by
  unfold payloadOfCmd at h ⊢
  rw [decode_cmd_filledTexts]
  cases hi : decode s.cmd with
  | error _ => rwa [hi] at h
  | ok i =>
    rw [hi] at h
    exact (sameButMem_filledTexts s).payload_error h

/-- R282: a command that would succeed keeps its payload over the filled texts. -/
theorem payloadOfCmd_filledTexts_of_ok {s : State} {p : Bytes} {nb rem : Nat} (h : payloadOfCmd s = .ok p nb rem) :
    payloadOfCmd (filledTexts s) = .ok p nb rem := by
  obtain ⟨i, hi, hp⟩ := payloadOfCmd_ok h
  rw [payloadOfCmd_of_decoded ((decode_cmd_filledTexts s).trans hi)]
  exact (sameButMem_filledTexts s).payload_ok (fun _ => memLookup_filledTexts) hp

/-- R129: over the filled texts no command meets an unwritten byte. -/
theorem payload_filledTexts_ne_unwritten (i : Instr) (s : State) : payload i (filledTexts s) ≠ .unwritten := by
  intro h
  have hst := sameButMem_filledTexts s
  obtain ⟨hlengths, -, k, hreads, j, hj, hnone⟩ := payload_eq_unwritten.mp h
  have hle := hlengths k hreads
  rw [hst.tlen_eq, hst.textCap_eq] at hle
  rw [hst.tlen_eq] at hj
  exact filledTexts_held hle hj hnone

/-- R129, R282: a command that meets an unwritten byte has passed its checks, so it succeeds over the filled texts. -/
theorem payloadOfCmd_filledTexts_of_unwritten {s : State} (h : payloadOfCmd s = .unwritten) :
    ∃ p nb rem, payloadOfCmd (filledTexts s) = .ok p nb rem := by
  cases hi : decode s.cmd with
  | error _ => simp [payloadOfCmd, hi] at h
  | ok i =>
    rw [payloadOfCmd_of_decoded hi] at h
    rw [payloadOfCmd_of_decoded ((decode_cmd_filledTexts s).trans hi)]
    cases hb : payload i (filledTexts s) with
    | ok p nb rem => exact ⟨p, nb, rem, rfl⟩
    | error e => cases h.symm.trans ((sameButMem_filledTexts s).symm.payload_error hb)
    | unwritten => exact absurd hb (payload_filledTexts_ne_unwritten i s)

/-! ## What the sink had received -/

theorem cutFrame_of_error {s : State} {e : ErrCode} (n : Nat) (h : payloadOfCmd (filledTexts s) = .error e) :
    cutFrame n s = [] := by
  simp [cutFrame, h]

theorem cutFrame_zero (s : State) : cutFrame 0 s = [] := by
  unfold cutFrame
  split
  · cases payloadOfCmd (filledTexts s) <;> rfl
  · rfl

theorem cutFrame_of_ok {s : State} {p : Bytes} {nb rem n : Nat} (hbusy : s.status.busy = true) (hn : 1 ≤ n)
    (h : payloadOfCmd (filledTexts s) = .ok p nb rem) :
    cutFrame n s = [{ bytes := (frame p).take n, truncated := true }] := by
  simp [cutFrame, hbusy, h, Nat.ne_of_gt hn]

/-- R282: the draw 0 is "no frame reaches the sink". -/
theorem resetBlock_zero_out (s : State) : (resetBlock 0 s).out = s.out := by
  rw [resetBlock_out, cutFrame_zero, List.append_nil]

/-- R282: a draw n from 1 on is the first n bytes of the frame that the command builds over the filled texts. -/
theorem resetBlock_out_of_ok {s : State} {p : Bytes} {nb rem n : Nat} (hbusy : s.status.busy = true) (hn : 1 ≤ n)
    (h : payloadOfCmd (filledTexts s) = .ok p nb rem) :
    (resetBlock n s).out = s.out ++ [{ bytes := (frame p).take n, truncated := true }] := by
  rw [resetBlock_out, cutFrame_of_ok hbusy hn h]

/-- Settles O10: by what the pending command's payload is over the filled texts, which are the bytes in place of the
unwritten ones. -/
theorem resetCutsThePendingFrame : Obligations.ResetCutsThePendingFrame := by
  intro s hbusy
  refine ⟨fun e n herror => ?_, fun p nb rem hok => ?_, fun hunwritten => ?_⟩
  · rw [resetBlock_out, cutFrame_of_error n (payloadOfCmd_filledTexts_of_error herror), List.append_nil]
  · have hcut (n : Nat) (hn : 1 ≤ n) := resetBlock_out_of_ok hbusy hn (payloadOfCmd_filledTexts_of_ok hok)
    refine ⟨resetBlock_zero_out s, hcut, fun m hm hle => ?_⟩
    exact ⟨m, (frame p).take m, List.take_prefix m _, List.length_take_of_le hle, hcut m hm⟩
  · obtain ⟨p, nb, rem, hok⟩ := payloadOfCmd_filledTexts_of_unwritten hunwritten
    refine ⟨filledTexts s, p, nb, rem, filledTexts_eq s, fun a b hheld => ?_, hok, resetBlock_zero_out s,
      fun n hn => resetBlock_out_of_ok hbusy hn hok⟩
    rw [memLookup_filledTexts (by rw [hheld]; exact nofun), hheld]

end Sys2Proof.Machine
end
